-- ==== Sys2Proof/Word.lean ====
section
/-! DEFINITION. The word types of the block and the four-byte transfer unit of its bus (00_scope.md rule R17,
20_memory.md rule R48, 30_encoding.md rule R61). -/

namespace Sys2Proof

/-- A command word or a packed response word: 64 bits (rules R61 and R66). -/
abbrev Word := BitVec 64

/-- A register of the driver chip: 8 bits (rule R40). -/
abbrev Byte := BitVec 8

/-- A result word of a response, or one of a channel's two register values: 16 bits (rules R24 and R45). -/
abbrev Half := BitVec 16

/-- A channel index, 0 to 15 (rules R7 and R60). -/
abbrev Channel := Fin 16

/-- Four bytes in ascending address order: the largest transfer of the bus (rule R48). -/
structure Quad where
  b0 : Byte
  b1 : Byte
  b2 : Byte
  b3 : Byte
  deriving DecidableEq, Repr, Inhabited

/-- The bytes of a quad, the lowest address first. -/
def Quad.toList (q : Quad) : List Byte := [q.b0, q.b1, q.b2, q.b3]

end Sys2Proof
end

