-- ==== Sys2Proof/Syntax.lean ====
section
/-! DEFINITION. The five commands (30_encoding.md rules R60, R62 and R65) as one inductive, with the operands as the
integers rule R65 assembles. -/

namespace Sys2Proof

/-- The operations of rule R60. -/
inductive Op where
  | enc
  | dec
  | setd
  | getd
  | cfg
  deriving DecidableEq, Repr

/-- The opcode value of an operation (rule R62). -/
def Op.code : Op → Nat
  | .enc => 0x1
  | .dec => 0x2
  | .setd => 0x3
  | .getd => 0x4
  | .cfg => 0x5

/-- A command with its operands. `inv` is the invert flag; a duty `value` is an integer that rule R80 range-checks;
`on` and `off` are a register pair; `frequency` is in whole hertz. Which integers a command word can carry is
`Instr.wellFormed`. -/
inductive Instr where
  /-- ENC, `enc[.inv] value` (rule R85). -/
  | enc (inv : Bool) (value : Int)
  /-- DEC, `dec[.inv] on, off` (rule R86). -/
  | dec (inv : Bool) (on off : Nat)
  /-- SETD, `setd[.inv] ch, value` (rule R93). -/
  | setd (ch : Channel) (inv : Bool) (value : Int)
  /-- GETD, `getd[.inv] ch` (rule R94). -/
  | getd (ch : Channel) (inv : Bool)
  /-- CFG, `cfg frequency` (rule R95). -/
  | cfg (frequency : Nat)
  deriving DecidableEq, Repr

/-- The operation of a command. -/
def Instr.op : Instr → Op
  | .enc _ _ => .enc
  | .dec _ _ _ => .dec
  | .setd _ _ _ => .setd
  | .getd _ _ => .getd
  | .cfg _ => .cfg

end Sys2Proof
end

