-- ==== Sys2Proof/WellFormed.lean ====
section
/-! DEFINITION. Which commands a command word can carry: the operand ranges of 30_encoding.md rules R65 and R69. The
channel's range, 0 to 15, is in its type. -/

namespace Sys2Proof

/-- A duty operand is a 16-bit two's complement integer (rules R65 and R69). -/
def valueEncodable (value : Int) : Bool := decide (-32768 ≤ value) && decide (value ≤ 32767)

/-- An `on`, an `off` or a `frequency` is an unsigned 16-bit integer (rules R65 and R69). -/
def halfEncodable (n : Nat) : Bool := decide (n ≤ 65535)

/-- The operands fit the fields of the command word (rule R69: outside these ranges an assembler must refuse). -/
def Instr.wellFormed : Instr → Bool
  | .enc _ value => valueEncodable value
  | .dec _ on off => halfEncodable on && halfEncodable off
  | .setd _ _ value => valueEncodable value
  | .getd _ _ => true
  | .cfg frequency => halfEncodable frequency

end Sys2Proof
end

