-- ==== Sys2Proof/Decode.lean ====
section
/-! DEFINITION. The decoder of command words (30_encoding.md rules R61 to R65 and R68), total on every word and on
every list of bytes, rejecting by name; the machine-readable table's rows (rule R68); and the encoder, written from the
same field table (rules R61, R64 and R69). -/

namespace Sys2Proof

/-- `v[hi:lo]` of rule R17: the field of a word from bit `hi` down to bit `lo`, read as an unsigned integer. -/
def field (w : Word) (hi lo : Nat) : Nat := w.toNat / 2 ^ lo % 2 ^ (hi + 1 - lo)

/-- `sext_16` of rule R17 on a field of 16 bits: its two's complement integer. -/
def sext16 (n : Nat) : Int := if n < 32768 then (n : Int) else (n : Int) - 65536

/-- The 16 bits that carry an integer in two's complement (rules R65 and R69). -/
def twos16 (v : Int) : Nat := (v % 65536).toNat

/-- Why a command word is illegal. Every reason gives the same response (rules R63, R64 and R115); the names are those
of 93_implementation_defined.md X1 to X3. -/
inductive Illegal where
  /-- OP is 0x0 or 0x6 to 0xF (rule R63, X1). -/
  | reservedOpcode
  /-- RSV0 or RSV1 is not zero (rule R64, X2). -/
  | reservedBits
  /-- A field the opcode does not use is not zero (rule R64, X3). -/
  | unusedField
  /-- Fewer than the eight bytes of a command word were given: only a list of bytes can raise this. -/
  | truncated
  deriving DecidableEq, Repr

/-- The operation of an opcode value, or none where the value is reserved (rule R62). -/
def opOf (code : Nat) : Option Op :=
  if code = 0x1 then some .enc
  else if code = 0x2 then some .dec
  else if code = 0x3 then some .setd
  else if code = 0x4 then some .getd
  else if code = 0x5 then some .cfg
  else none

/-- CH: bits [7:4] (rules R61 and R65). -/
def chOf (w : Word) : Channel := Fin.ofNat 16 (field w 7 4)

/-- INV: bit [8] (rules R61 and R65). -/
def invOf (w : Word) : Bool := decide (field w 8 8 = 1)

/-- `value = sext_16(w[31:16])` (rule R65). -/
def valueOf (w : Word) : Int := sext16 (field w 31 16)

/-- A command word's instruction, or why it is illegal (rule R68). -/
def decode (w : Word) : Except Illegal Instr :=
  match opOf (field w 3 0) with
  | none => .error .reservedOpcode
  | some op =>
    if field w 15 9 ≠ 0 ∨ field w 63 48 ≠ 0 then .error .reservedBits
    else match op with
      | .enc =>
        if field w 7 4 ≠ 0 ∨ field w 47 32 ≠ 0 then .error .unusedField
        else .ok (.enc (invOf w) (valueOf w))
      | .dec =>
        if field w 7 4 ≠ 0 then .error .unusedField
        else .ok (.dec (invOf w) (field w 31 16) (field w 47 32))
      | .setd =>
        if field w 47 32 ≠ 0 then .error .unusedField
        else .ok (.setd (chOf w) (invOf w) (valueOf w))
      | .getd =>
        if field w 31 16 ≠ 0 ∨ field w 47 32 ≠ 0 then .error .unusedField
        else .ok (.getd (chOf w) (invOf w))
      | .cfg =>
        if field w 7 4 ≠ 0 ∨ field w 8 8 ≠ 0 ∨ field w 47 32 ≠ 0 then .error .unusedField
        else .ok (.cfg (field w 31 16))

/-- A word carried as bytes, little-endian (rule R66). -/
def wordBytes (w : Word) : List Byte :=
  (List.range 8).map fun k => BitVec.ofNat 8 (w.toNat / 256 ^ k)

/-- The word that eight bytes carry, little-endian (rule R66). -/
def bytesWord (b0 b1 b2 b3 b4 b5 b6 b7 : Byte) : Word :=
  BitVec.ofNat 64 (b0.toNat + 256 * b1.toNat + 256 ^ 2 * b2.toNat + 256 ^ 3 * b3.toNat + 256 ^ 4 * b4.toNat +
    256 ^ 5 * b5.toNat + 256 ^ 6 * b6.toNat + 256 ^ 7 * b7.toNat)

/-- The first command of a list of bytes and the bytes after it (rules R61, R66 and R68): one length, one format. -/
def decodeBytes : List Byte → Except Illegal (Instr × List Byte)
  | b0 :: b1 :: b2 :: b3 :: b4 :: b5 :: b6 :: b7 :: rest =>
    match decode (bytesWord b0 b1 b2 b3 b4 b5 b6 b7) with
    | .ok i => .ok (i, rest)
    | .error e => .error e
  | _ => .error .truncated

/-- The word that opcode-table bits stand for: bits above `nbits` are zero. -/
def tableWord (nbits w : Nat) : Word := BitVec.ofNat 64 (w % 2 ^ nbits)

/-- The instruction the decoder reads from the bytes of a word numbered as spec/opcode_table.json numbers it. -/
def decodeTableWord (nbits w : Nat) : Option Instr :=
  match decodeBytes (wordBytes (tableWord nbits w)) with
  | .ok (i, _) => some i
  | .error _ => none

/-- The abstract record of a command (rule R60). -/
structure Cmd where
  op : Op
  ch : Nat
  inv : Bool
  a : Nat
  b : Nat
  deriving DecidableEq, Repr

/-- The record of an instruction: a field it does not use is zero (rules R60 and R64). -/
def Instr.cmd : Instr → Cmd
  | .enc inv value => ⟨.enc, 0, inv, twos16 value, 0⟩
  | .dec inv on off => ⟨.dec, 0, inv, on, off⟩
  | .setd ch inv value => ⟨.setd, ch.val, inv, twos16 value, 0⟩
  | .getd ch inv => ⟨.getd, ch.val, inv, 0, 0⟩
  | .cfg frequency => ⟨.cfg, 0, false, frequency, 0⟩

/-- One row of the opcode table: a word is the row's if `word AND mask = match` (rule R68). -/
structure OpRow where
  op : Op
  mask : Word
  pattern : Word
  deriving DecidableEq, Repr

/-- The rows of spec/opcode_table.json (rule R68). -/
def opcodeTable : List OpRow :=
  [ ⟨.enc, 0xFFFFFFFF0000FEFF#64, 0x0000000000000001#64⟩,
    ⟨.dec, 0xFFFF00000000FEFF#64, 0x0000000000000002#64⟩,
    ⟨.setd, 0xFFFFFFFF0000FE0F#64, 0x0000000000000003#64⟩,
    ⟨.getd, 0xFFFFFFFFFFFFFE0F#64, 0x0000000000000004#64⟩,
    ⟨.cfg, 0xFFFFFFFF0000FFFF#64, 0x0000000000000005#64⟩ ]

/-- The word belongs to a row (rule R68). -/
def OpRow.covers (r : OpRow) (w : Word) : Bool := decide (w &&& r.mask = r.pattern)

/-- Format C: the word of a record; RSV0 and RSV1 are zero (rule R61). -/
def Cmd.word (c : Cmd) : Word :=
  BitVec.ofNat 64 (c.op.code + 2 ^ 4 * c.ch + 2 ^ 8 * c.inv.toNat + 2 ^ 16 * c.a + 2 ^ 32 * c.b)

/-- The word of a command (rules R61, R64 and R69). -/
def encode (i : Instr) : Word := i.cmd.word

end Sys2Proof
end

