-- ==== Sys2Proof/Config.lean ====
section
/-! DEFINITION. The implementation parameters of 00_scope.md (rules R7 to R16), each at the value this hardware takes,
the two OPEN parameters as constants with no body, and the free values of the bus and of the chip (20_memory.md rules R49, R51
and R52, 10_state.md rule R34, 60_exceptions.md rule R126, 70_reset_and_hazards.md rule R135).
The configuration is not state: no step changes it (10_state.md rule R30). -/

namespace Sys2Proof

/-- What one channel of the chip puts out: for each tick of a PWM period whether the signal is high (rules R8 and R19). -/
abbrev Output := BitVec 4096

/-- Everything the spec leaves free about ONE bus transaction (rules R51, R52, R126 and R135). -/
structure BusDraw where
  /-- The transaction ends in `fault` (rule R52). It counts only while BUS_MAY_FAULT holds. -/
  fault : Bool
  /-- Another master's transaction overlaps this one: bus exclusion is broken (rule R135). -/
  overlapped : Bool
  /-- The deterministic oracle of rule R51 is assumed: it answers a read, and the chip keeps its registers across the sleep
  that a write puts it into (rule R126). `false` is the general oracle. -/
  deterministic : Bool
  /-- The bytes a read returns under the general oracle, or where it is overlapped. -/
  bytes : Quad
  /-- The bytes left in the transaction's range of the chip by a faulted write, and by any overlapped transaction. -/
  left : Quad
  /-- The registers of the chip that other masters' transactions have reached since this block's last transaction, those
  that overlap this one among them, and the byte each is left with, in that order (rules R55, R134 and R135). -/
  others : List (Byte × Byte)
  /-- The registers the chip does not keep across the sleep that this write puts it into, and the byte each is left with,
  under the general oracle (rule R126). Log entry 17. -/
  lost : List (Byte × Byte)
  deriving DecidableEq, Repr, Inhabited

namespace Config

/-- NUM_CH (rule R7). -/
@[simp] abbrev numCh : Nat := 16
/-- TICKS (rule R8). -/
@[simp] abbrev ticks : Nat := 4096
/-- DUTY_MAX (rule R8). -/
@[simp] abbrev dutyMax : Nat := 4095
/-- FULL, the sentinel register value (rule R8). -/
@[simp] abbrev full : Nat := 4096
/-- OSC_HZ (rule R9). -/
@[simp] abbrev oscHz : Nat := 25000000
/-- MODE1_ADDR (rule R10). -/
@[simp] abbrev mode1Addr : Nat := 0x00
/-- PRESCALE_ADDR (rule R10). -/
@[simp] abbrev prescaleAddr : Nat := 0xFE
/-- CH_BASE (rule R10). -/
@[simp] abbrev chBase : Nat := 0x06
/-- CH_STRIDE (rule R10). -/
@[simp] abbrev chStride : Nat := 4
/-- CH_BYTES (rule R10). -/
@[simp] abbrev chBytes : Nat := 4
/-- MODE1_SLEEP_CLEAR_MASK (rule R13). UNVERIFIED against the source: log entry 3. -/
@[simp] abbrev mode1SleepClearMask : Byte := 0x7F#8
/-- MODE1_SLEEP_SET (rule R13). UNVERIFIED against the source: log entry 3. -/
@[simp] abbrev mode1SleepSet : Byte := 0x10#8
/-- MODE1_AI_SET (rule R13). UNVERIFIED against the source: log entry 3. -/
@[simp] abbrev mode1AiSet : Byte := 0xA1#8
/-- PRESCALE_MAX (rule R14). -/
@[simp] abbrev prescaleMax : Nat := 255
/-- REQUIRE_CONFIGURE (rule R15). -/
@[simp] abbrev requireConfigure : Bool := true
/-- BUS_MAY_FAULT (rule R16). -/
@[simp] abbrev busMayFault : Bool := true

/-- CHIP_ADDR, the I2C bus address of the driver chip: OPEN (rule R11). Log entry 1. -/
opaque chipAddr : Nat

/-- By how many microseconds T_SETTLE exceeds its least value: OPEN (rule R12). Log entry 2. -/
opaque settleBeyondOne : Nat

/-- T_SETTLE, in microseconds, at least 1: OPEN (rule R12). Log entry 2. -/
def tSettle : Nat := settleBeyondOne + 1

/-- The free value of the n-th bus transaction that no listed draw covers (rules R51, R52 and R135). Log entry 4. -/
opaque busDraw : Nat → BusDraw

/-- The byte that a chip register nothing has written since reset holds, for each reset and each address: a draw
(rules R34 and R131). Log entry 5. -/
opaque initialByte : Nat → Nat → Byte

/-- What each channel puts out, for each count of transactions and resets: any value (rule R49). Log entry 16. -/
opaque channelOutput : Nat → Channel → Output

end Config

end Sys2Proof
end

