-- ==== Sys2Proof/Machine/State.lean ====
section
/-! DEFINITION. The state of the block, of the chip it talks to and of its environment, as plain data (10_state.md),
the state after reset (rules R34 and R130), and the reasons a step could stop. -/

namespace Sys2Proof.Machine

/-- The chip's register image CHIP (10_state.md rule R26): the bytes written since reset, as pairs of an address and a
byte in ONE canonical form (`Memory.wf`): addresses strictly rising, all in the 8-bit space of rule R40. An unlisted
address has no byte of its own; what a read gives there is a draw (`State.chipByte`). -/
abbrev Memory := List Host.Cell

/-- STATUS (60_exceptions.md rule R110). The reserved codes 0x06 to 0xFF have no constructor: they are never returned. -/
inductive Status where
  | ok
  | rangeError
  | decodeError
  | busFault
  | unconfiguredAccess
  | illegalCommand
  deriving DecidableEq, Repr

/-- The response of a command (10_state.md rule R24). -/
structure Response where
  status : Status
  r0 : Half
  r1 : Half
  deriving DecidableEq, Repr

/-- The outcome of a bus transaction (10_state.md rule R28). -/
inductive TxOutcome where
  | ok
  | fault
  deriving DecidableEq, Repr

/-- The three kinds of event (10_state.md rule R28). `device` is the bus address the transaction is addressed to
(20_memory.md rule R43); log entry 6. -/
inductive EventKind where
  | busWrite (device addr : Nat) (bytes : List Byte)
  | busRead (device addr n : Nat) (bytes : List Byte)
  | wait (microseconds : Nat)
  deriving DecidableEq, Repr

/-- An event of the history with its outcome (10_state.md rule R28). -/
structure Event where
  kind : EventKind
  outcome : TxOutcome
  deriving DecidableEq, Repr

/-- The sequencer's phases (10_state.md rule R29). -/
inductive Phase where
  | idle
  | check
  | readMode
  | sleep
  | prescale
  | restore
  | settle
  | aiEnable
  deriving DecidableEq, Repr

/-- What the host can do to the block between two commands: present a command word (10_state.md rule R33), or reset the
block (rules R22 and R130; log entry 9). -/
inductive HostInput where
  | command (word : Word)
  | reset
  deriving DecidableEq, Repr

/-- The state. The first five fields are the spec's (10_state.md rules R22, R26, R28 and R29, 20_memory.md rule R51);
the response is not kept by the block (rule R24), so `responses` is what the host has been handed, which no command reads; the rest is the
environment: what the host will present (rules R21 and R33), and the free values of the bus and of the chip. -/
structure State where
  /-- CONFIGURED (rule R22). -/
  configured : Bool
  /-- The sequencer's phase (rule R29); nothing reads it. -/
  phase : Phase
  /-- CHIP, the external register image (rule R26). -/
  chip : Memory
  /-- The image the deterministic read oracle answers from (20_memory.md rule R51): for each address the last byte that a
  write of this block which completed ok sent to it, and no byte where no such write exists. -/
  written : Memory
  /-- H, the event history, oldest first (rule R28). -/
  history : List Event
  /-- The responses handed to the host since reset, oldest first (rules R24 and R141). -/
  responses : List Response
  /-- What the host presents next, in order (rules R21 and R33). -/
  inbox : List HostInput
  /-- The model's own: the free values of the next bus transactions, first one first (rules R51, R52 and R135). -/
  draws : List BusDraw
  /-- The model's own: how many transactions have run past the end of `draws`. -/
  drawCount : Nat
  /-- The model's own: which draw of the chip's unwritten bytes holds; each reset takes the next (rule R131). -/
  chipEpoch : Nat
  /-- The model's own: which draw of the channels' outputs holds right after the block's last bus transaction; each
  transaction and each reset takes the next (20_memory.md rule R49). -/
  outputEpoch : Nat
  deriving DecidableEq, Repr

/-- Why the machine would stop with a fault: no reason exists. Every error of this block ends its command with a
response and the next command executes normally (60_exceptions.md rules R117 and R118); nobody raises a fault. Safe. -/
inductive Fault where
  deriving DecidableEq, Repr

/-- Why an instruction has no meaning. -/
inductive Refusal where
  /-- The instruction of that mnemonic is not modelled: raised by an arm of `exec` only; no arm does. Safe. -/
  | notModelled (mnemonic : String)
  deriving DecidableEq, Repr

/-- The state after reset (rules R34 and R130): CONFIGURED = 0, H empty, the sequencer idle, no response; the chip is
not reset and every byte of it is a draw (rule R131), so nothing is listed. The host has presented nothing yet. The
model's own fields hold nothing: every free value is then a constant with no body (log entries 4, 5 and 16). -/
def State.reset : State where
  configured := false
  phase := .idle
  chip := []
  written := []
  history := []
  responses := []
  inbox := []
  draws := []
  drawCount := 0
  chipEpoch := 0
  outputEpoch := 0

end Sys2Proof.Machine
end

