-- ==== Sys2Proof/Machine/Operands.lean ====
section
/-! DEFINITION. Operand forms: the byte order of a 16-bit value (20_memory.md rule R44), a channel's register address
(41_channel.md rule R90), its four-byte block (20_memory.md rule R45), the three MODE1 values (41_channel.md rule R92)
and the prescale value of a frequency (41_channel.md rule R91). -/

namespace Sys2Proof.Machine

/-- `le16` of rule R17: the low byte first. -/
def le16 (x : Half) : List Byte := [x.extractLsb' 0 8, x.extractLsb' 8 8]

/-- The 16-bit value of a low and a high byte, `low OR (high << 8)` (rule R44). -/
def half (low high : Byte) : Half := high ++ low

/-- A register pair (ON, OFF) as integers (40_codec.md rules R80 and R81). -/
structure RegPair where
  on : Nat
  off : Nat
  deriving DecidableEq, Repr

/-- ON in its 16-bit register (rule R45). -/
def RegPair.onHalf (p : RegPair) : Half := BitVec.ofNat 16 p.on

/-- OFF in its 16-bit register (rule R45). -/
def RegPair.offHalf (p : RegPair) : Half := BitVec.ofNat 16 p.off

/-- The four-byte block of a pair, `le16(ON) ++ le16(OFF)` (rules R45 and R67). -/
def RegPair.block (p : RegPair) : List Byte := le16 p.onHalf ++ le16 p.offHalf

/-- ON of a channel block that was read (rules R45 and R94). -/
def onOf (q : Quad) : Half := half q.b0 q.b1

/-- OFF of a channel block that was read (rules R45 and R94). -/
def offOf (q : Quad) : Half := half q.b2 q.b3

/-- `chaddr` (rule R90). -/
def chaddr (ch : Channel) : Nat := Config.chBase + Config.chStride * ch.val

/-- `prescale(f)` for a positive frequency (rule R91): `(2*OSC_HZ + TICKS*f) div (2*TICKS*f)`. -/
def prescale (f : Nat) : Nat := (2 * Config.oscHz + Config.ticks * f) / (2 * Config.ticks * f)

/-- The byte `write_register` carries for a prescale value (rules R14 and R95). -/
def prescaleByte (f : Nat) : Byte := BitVec.ofNat 8 (prescale f)

/-- `sleep_value(old)` (rule R92). -/
def sleepValue (old : Byte) : Byte := (old &&& Config.mode1SleepClearMask) ||| Config.mode1SleepSet

/-- `restore_value(old)` (rule R92). -/
def restoreValue (old : Byte) : Byte := old

/-- `ai_value(old)` (rule R92). -/
def aiValue (old : Byte) : Byte := old ||| Config.mode1AiSet

end Sys2Proof.Machine
end

