-- ==== Sys2Proof/Machine/Ops.lean ====
section
/-! DEFINITION. The named operations: the chip's register image (10_state.md rules R26 and R27), the bus primitives
(00_scope.md rule R18, 20_memory.md rules R43 and R50 to R53), the chip's sleep (60_exceptions.md rule R126), ending a command with its response and raising an error
(rules R18, R24 and R117), and reset (rules R34, R130 and R131). -/

namespace Sys2Proof.Machine

/-! ### The register image -/

/-- The byte listed for an address, or none where nothing has been written since reset. -/
def Memory.byte? : Memory → Nat → Option Byte
  | [], _ => none
  | (k, c) :: rest, a => if a = k then some c else Memory.byte? rest a

/-- Write one byte, keeping the addresses rising. -/
def Memory.set : Memory → Nat → Byte → Memory
  | [], a, b => [(a, b)]
  | (k, c) :: rest, a, b =>
    if a < k then (a, b) :: (k, c) :: rest
    else if a = k then (a, b) :: rest
    else (k, c) :: Memory.set rest a b

/-- Write bytes at an address and the ones after it, in ascending order (rule R43). -/
def Memory.setBlock (m : Memory) (a : Nat) : List Byte → Memory
  | [] => m
  | b :: bs => Memory.setBlock (Memory.set m a b) (a + 1) bs

/-- Write single bytes, one after another. -/
def Memory.setAll (m : Memory) : List (Byte × Byte) → Memory
  | [] => m
  | (a, b) :: rest => Memory.setAll (Memory.set m a.toNat b) rest

/-- Every listed address is at least `lo`, in the 8-bit space (rule R40), and below the next one. -/
def Memory.risingFrom (lo : Nat) : Memory → Bool
  | [] => true
  | (k, _) :: rest => decide (lo ≤ k) && decide (k < 256) && Memory.risingFrom (k + 1) rest

/-- The canonical form: addresses strictly rising, all in 0x00 to 0xFF. -/
def Memory.wf (m : Memory) : Bool := Memory.risingFrom 0 m

/-! ### Updates of the state -/

/-- The sequencer enters a phase (rule R29). -/
def State.enter (s : State) (p : Phase) : State := { s with phase := p }

/-- Append an event to H (rule R28). -/
def State.record (s : State) (k : EventKind) (o : TxOutcome) : State :=
  { s with history := s.history ++ [⟨k, o⟩] }

/-- The chip's register image and the deterministic oracle's image become these. -/
def State.setImages (s : State) (chip written : Memory) : State := { s with chip := chip, written := written }

/-- Write CONFIGURED (rule R22). -/
def State.setConfigured (s : State) (b : Bool) : State := { s with configured := b }

/-- The command ends: its response goes to the host and the block is idle (rules R24, R33 and R117). -/
def State.respond (s : State) (status : Status) (r0 r1 : Half) : State :=
  { s with responses := s.responses ++ [⟨status, r0, r1⟩], phase := .idle }

/-- `return (r0, r1)` (rule R18): the command ends with status OK. -/
def State.complete (s : State) (r0 r1 : Half) : State := s.respond .ok r0 r1

/-- `raise E(r0, r1)` (rules R18 and R117), the ONE way an error is taken: the command ends at once, its status and
result words go to the host, nothing is saved, no mode changes and the next command executes normally. There is no
return from it (rule R118). -/
def State.raiseError (s : State) (e : Status) (r0 r1 : Half) : State := s.respond e r0 r1

/-! ### Reading the register image -/

/-- What the chip's register holds: the byte written to it, else its draw (rules R34 and R51). -/
def State.chipByte (s : State) (a : Nat) : Byte :=
  (s.chip.byte? a).getD (Config.initialByte s.chipEpoch a)

/-- Four bytes of the image from an address on. -/
def State.chipQuad (s : State) (a : Nat) : Quad :=
  ⟨s.chipByte a, s.chipByte (a + 1), s.chipByte (a + 2), s.chipByte (a + 3)⟩

/-- ON[i], seen in CHIP (rule R27). -/
def State.onAt (s : State) (ch : Channel) : Half := onOf (s.chipQuad (chaddr ch))

/-- OFF[i], seen in CHIP (rule R27). -/
def State.offAt (s : State) (ch : Channel) : Half := offOf (s.chipQuad (chaddr ch))

/-- What the deterministic oracle answers for an address (rule R51): the last byte an ok write sent to it, else the
address's initial draw. -/
def State.oracleByte (s : State) (a : Nat) : Byte :=
  (s.written.byte? a).getD (Config.initialByte s.chipEpoch a)

/-- What the deterministic oracle answers for four addresses. -/
def State.oracleQuad (s : State) (a : Nat) : Quad :=
  ⟨s.oracleByte a, s.oracleByte (a + 1), s.oracleByte (a + 2), s.oracleByte (a + 3)⟩

/-- What a channel puts out right after the block's last bus transaction: any value, for every channel (rule R49). -/
def State.output (s : State) (ch : Channel) : Output := Config.channelOutput s.outputEpoch ch

/-! ### The free values of the bus -/

/-- The free values of the k-th bus transaction from here on: listed in the state, else a constant with no body. -/
def State.drawAt (s : State) (k : Nat) : BusDraw :=
  match s.draws[k]? with
  | some d => d
  | none => Config.busDraw (s.drawCount + (k - s.draws.length))

/-- The free values of the next bus transaction. -/
def State.draw (s : State) : BusDraw := s.drawAt 0

/-- The state after the next transaction's free values are used up, the channels' outputs among them: rule R49 leaves
every one unspecified after a PRESCALE write while the oscillator runs, this block's or another master's, and no rule
gives one after any other transaction (rules R26 and R126). -/
def State.advance (s : State) : State :=
  { s with
    draws := s.draws.tail
    drawCount := if s.draws.isEmpty then s.drawCount + 1 else s.drawCount
    outputEpoch := s.outputEpoch + 1 }

/-- The transaction ends in `fault` (rules R16 and R52). -/
def txFaults (d : BusDraw) : Bool := Config.busMayFault && d.fault

/-! ### The bus primitives -/

/-- The bytes a read returns (rules R51 and R135): the deterministic oracle's, with bus exclusion kept, else any
bytes. -/
def State.answerBytes (s : State) (d : BusDraw) (addr : Nat) : Quad :=
  if d.deterministic && !d.overlapped then s.oracleQuad addr else d.bytes

/-- How the next bus transaction ends. -/
def State.txOutcome (s : State) : TxOutcome := if txFaults s.draw then .fault else .ok

/-- What a read of the next transaction returns: no bytes where it faults (rule R52). -/
def State.readReturns (s : State) (addr : Nat) : Option Quad :=
  if txFaults s.draw then none else some (s.answerBytes s.draw addr)

/-- The n bytes the event of a read holds (rule R28). -/
def State.readBytes (s : State) (addr n : Nat) : List Byte :=
  match s.readReturns addr with
  | none => []
  | some q => q.toList.take n

/-- The chip once other masters' transactions have reached it, before this one's bytes land (rules R55 and R135). -/
def State.chipOfOthers (s : State) : Memory := s.chip.setAll s.draw.others

/-- The deterministic oracle's image after an overlapped transaction of n bytes: the bytes of any overlapped transaction,
this block's or the other master's, are any bytes (rule R135). -/
def State.oracleOverlapped (s : State) (addr n : Nat) : Memory :=
  (s.written.setAll s.draw.others).setBlock addr (s.draw.left.toList.take n)

/-- The chip after a read of n bytes: a read changes nothing (rule R50), but where it is overlapped, its range holds any
bytes (rule R135). -/
def State.chipAfterRead (s : State) (addr n : Nat) : Memory :=
  if s.draw.overlapped then s.chipOfOthers.setBlock addr (s.draw.left.toList.take n) else s.chipOfOthers

/-- The deterministic oracle's image after a read of n bytes (rules R51 and R135). -/
def State.writtenAfterRead (s : State) (addr n : Nat) : Memory :=
  if s.draw.overlapped then s.oracleOverlapped addr n else s.written

/-- The state after a read of n bytes: one transaction, one event (rule R43). -/
def State.afterRead (s : State) (addr n : Nat) : State :=
  (s.advance.setImages (s.chipAfterRead addr n) (s.writtenAfterRead addr n)).record
    (.busRead Config.chipAddr addr n (s.readBytes addr n)) s.txOutcome

/-- `MemRead(addr, n)` for n up to 4 (rules R18, R43, R50 to R52); none where it faulted. The first n bytes of the quad
are the ones transferred. -/
def State.memRead (s : State) (addr n : Nat) : Option Quad × State := (s.readReturns addr, s.afterRead addr n)

/-- The bytes a write leaves in its range (rules R52 and R135): those written, unless the transaction faulted or was
overlapped; then any byte, for each address of the range. -/
def landedBytes (d : BusDraw) (bytes : List Byte) : List Byte :=
  if txFaults d || d.overlapped then d.left.toList.take bytes.length else bytes

/-- The chip after a write (rules R43, R52 and R135). -/
def State.chipAfterWrite (s : State) (addr : Nat) (bytes : List Byte) : Memory :=
  s.chipOfOthers.setBlock addr (landedBytes s.draw bytes)

/-- The deterministic oracle's image after a write: a write that completed ok is the last one to each address of its
range, and one that faulted is none (rule R51). -/
def State.writtenAfterWrite (s : State) (addr : Nat) (bytes : List Byte) : Memory :=
  if s.draw.overlapped then s.oracleOverlapped addr bytes.length
  else if txFaults s.draw then s.written
  else s.written.setBlock addr bytes

/-- The chip across the sleep that the next transaction, a MODE1 write, puts it into: what it keeps is not stated, and only
the deterministic oracle is a premise that it keeps its registers (rule R126). Log entry 17. -/
def State.chipThroughSleep (s : State) : Memory :=
  if s.draw.deterministic then s.chip else s.chip.setAll s.draw.lost

/-- The state with the chip's registers as the sleep that the next transaction puts it into leaves them; what the
deterministic oracle answers does not change (rules R51 and R126). -/
def State.throughSleep (s : State) : State := s.setImages s.chipThroughSleep s.written

/-- The state after a write: one transaction, one event, which holds the bytes sent (rules R28 and R43). -/
def State.afterWrite (s : State) (addr : Nat) (bytes : List Byte) : State :=
  (s.advance.setImages (s.chipAfterWrite addr bytes) (s.writtenAfterWrite addr bytes)).record
    (.busWrite Config.chipAddr addr bytes) s.txOutcome

/-- `MemWrite(addr, n, bytes)` for n up to 4 (rules R18, R43 and R52). -/
def State.memWrite (s : State) (addr : Nat) (bytes : List Byte) : TxOutcome × State :=
  (s.txOutcome, s.afterWrite addr bytes)

/-- `read_register(address)` (rule R43): one byte. -/
def State.readRegister (s : State) (addr : Nat) : Option Byte × State :=
  match s.memRead addr 1 with
  | (some q, s') => (some q.b0, s')
  | (none, s') => (none, s')

/-- `write_register(address, byte)` (rule R43). -/
def State.writeRegister (s : State) (addr : Nat) (b : Byte) : TxOutcome × State := s.memWrite addr [b]

/-- `read_block(address, length)` (rule R43); the block's only length is CH_BYTES (rule R48). -/
def State.readBlock (s : State) (addr : Nat) : Option Quad × State := s.memRead addr Config.chBytes

/-- `write_block(address, bytes)` (rule R43). -/
def State.writeBlock (s : State) (addr : Nat) (bytes : List Byte) : TxOutcome × State := s.memWrite addr bytes

/-- `Wait(t)` (rules R18 and R52): an event, which never faults. -/
def State.wait (s : State) (t : Nat) : State := s.record (.wait t) .ok

/-! ### Host inputs -/

/-- An illegal word executes nothing, performs no bus transaction and returns `(IllegalCommand, 0, 0)` (rules R63, R64
and R115). -/
def State.illegalCommand (s : State) : State := s.raiseError .illegalCommand 0 0

/-- A reset that arrives (rules R22, R34, R130 and R131): CONFIGURED = 0, H empty, idle, no response, no transaction.
The chip is not reset, and each of its bytes and of its outputs is a draw from then on. -/
def State.resetBlock (s : State) : State :=
  { s with
    configured := false
    phase := .idle
    chip := []
    written := []
    history := []
    responses := []
    chipEpoch := s.chipEpoch + 1
    outputEpoch := s.outputEpoch + 1 }

/-- What the host presents next, if anything, and the state once the block has taken it (rules R21 and R33). -/
def State.takeInput (s : State) : Option HostInput × State :=
  (s.inbox.head?, { s with inbox := s.inbox.tail })

/-- The host presents a command ahead of everything it has presented. -/
def State.present (s : State) (w : Word) : State := { s with inbox := .command w :: s.inbox }

end Sys2Proof.Machine
end

