-- ==== Sys2Proof/Machine/Flags.lean ====
section
/-! DEFINITION. STATUS, the block's only condition code (10_state.md rule R25): its codes (60_exceptions.md rule R110),
the packed response (30_encoding.md rule R66), and the conditions of the checks that precede every bus transaction
(60_exceptions.md rules R111, R114 and R116). -/

namespace Sys2Proof.Machine

/-- The numeric codes (rule R110). -/
def Status.code : Status → Byte
  | .ok => 0x00#8
  | .rangeError => 0x01#8
  | .decodeError => 0x02#8
  | .busFault => 0x03#8
  | .unconfiguredAccess => 0x04#8
  | .illegalCommand => 0x05#8

/-- The 64-bit response word (rule R66). -/
def Response.pack (r : Response) : Word :=
  BitVec.ofNat 64 (r.status.code.toNat + 2 ^ 16 * r.r0.toNat + 2 ^ 32 * r.r1.toNat)

/-- The response word carried as bytes, little-endian (rule R66). -/
def Response.bytes (r : Response) : List Byte := wordBytes r.pack

/-- A duty value is in [0, DUTY_MAX] (rules R80 and R111). -/
def dutyInRange (value : Int) : Bool := decide (0 ≤ value) && decide (value ≤ (Config.dutyMax : Int))

/-- A frequency that CFG rejects: 0, or a prescale value that does not fit in one byte (rules R95 and R111). -/
def frequencyRejected (f : Nat) : Bool := decide (f = 0) || decide (prescale f > Config.prescaleMax)

/-- The state check of SETD and GETD: REQUIRE_CONFIGURE holds and CONFIGURED = 0 (rule R114). -/
def State.unconfigured (s : State) : Bool := Config.requireConfigure && !s.configured

end Sys2Proof.Machine
end

