-- ==== Sys2Proof/Machine/Codec.lean ====
section
/-! DEFINITION. The duty-cycle codec and its two commands, ENC and DEC (40_codec.md). -/

namespace Sys2Proof.Machine

/-- `inv ? 4095 - v : v`, on a duty value in range (rule R84). -/
def complementIf (inv : Bool) (v : Nat) : Nat := if inv then Config.dutyMax - v else v

/-- The register pair of a duty value in range, with the two sentinels (rule R80). -/
def pairOf (v : Nat) : RegPair :=
  if v = 0 then ⟨0, Config.full⟩
  else if v = Config.dutyMax then ⟨Config.full, 0⟩
  else ⟨0, v⟩

/-- `encode(value, inv)` (rule R80); none is RangeError. The range check is on the value as given. -/
def encodeDuty (value : Int) (inv : Bool) : Option RegPair :=
  if dutyInRange value then some (pairOf (complementIf inv value.toNat)) else none

/-- `decode(on, off, inv)` (rule R81); none is DecodeError. Both sentinels are detected explicitly. -/
def decodeDuty (on off : Nat) (inv : Bool) : Option Nat :=
  if on = 0 ∧ off = Config.full then some (complementIf inv 0)
  else if on = Config.full ∧ off = 0 then some (complementIf inv Config.dutyMax)
  else if on = 0 ∧ 1 ≤ off ∧ off ≤ 4094 then some (complementIf inv off)
  else none

/-- ENC (rule R85): no state is written and no bus transaction is issued. -/
def execEnc (inv : Bool) (value : Int) (s : State) : Host.Outcome State Fault Refusal :=
  .next (match encodeDuty value inv with
    | none => s.raiseError .rangeError 0 0
    | some p => s.complete p.onHalf p.offHalf)

/-- DEC (rule R86): no state is written and no bus transaction is issued. -/
def execDec (inv : Bool) (on off : Nat) (s : State) : Host.Outcome State Fault Refusal :=
  .next (match decodeDuty on off inv with
    | none => s.raiseError .decodeError (BitVec.ofNat 16 on) (BitVec.ofNat 16 off)
    | some v => s.complete (BitVec.ofNat 16 v) 0)

end Sys2Proof.Machine
end

