-- ==== Sys2Proof/Machine/Channel.lean ====
section
/-! DEFINITION. The I2C channel controller's commands: SETD, GETD and CFG (41_channel.md). -/

namespace Sys2Proof.Machine

/-- SETD (rule R93), its checks in the order of rule R116: range, then configured, then the one block write. -/
def execSetd (ch : Channel) (inv : Bool) (value : Int) (s : State) : Host.Outcome State Fault Refusal :=
  .next (match encodeDuty value inv with
    | none => s.raiseError .rangeError 0 0
    | some p =>
      if s.unconfigured then s.raiseError .unconfiguredAccess 0 0
      else match s.writeBlock (chaddr ch) p.block with
        | (.fault, s') => s'.raiseError .busFault 0 0
        | (.ok, s') => s'.complete p.onHalf p.offHalf)

/-- GETD (rule R94): configured, then the one block read, then the codec. -/
def execGetd (ch : Channel) (inv : Bool) (s : State) : Host.Outcome State Fault Refusal :=
  .next (
    if s.unconfigured then s.raiseError .unconfiguredAccess 0 0
    else match s.readBlock (chaddr ch) with
      | (none, s') => s'.raiseError .busFault 0 0
      | (some q, s') =>
        match decodeDuty (onOf q).toNat (offOf q).toNat inv with
        | none => s'.raiseError .decodeError (onOf q) (offOf q)
        | some v => s'.complete (BitVec.ofNat 16 v) 0)

/-- One write of CFG in its phase (rule R95): where it faults, CONFIGURED becomes 0 and the command ends with BusFault;
else the sequence goes on. -/
def cfgWrite (p : Phase) (addr : Nat) (b : Byte) (s : State) (goOn : State → State) : State :=
  match (s.enter p).writeRegister addr b with
  | (.fault, s') => (s'.setConfigured false).raiseError .busFault 0 0
  | (.ok, s') => goOn s'

/-- The frequency-change sequence after the MODE1 read gave `old` (rules R92, R95 and R134). Its sleep write puts the chip
to sleep, across which the chip may lose registers (60_exceptions.md rule R126). -/
def cfgSequence (f : Nat) (old : Byte) (s : State) : State :=
  cfgWrite .sleep Config.mode1Addr (sleepValue old) s.throughSleep fun s =>
  cfgWrite .prescale Config.prescaleAddr (prescaleByte f) s fun s =>
  cfgWrite .restore Config.mode1Addr (restoreValue old) s fun s =>
  cfgWrite .aiEnable Config.mode1Addr (aiValue old) ((s.enter .settle).wait Config.tSettle) fun s =>
  (s.setConfigured true).complete (BitVec.ofNat 16 (prescale f)) (old.setWidth 16)

/-- CFG (rule R95): the check, the MODE1 read, then the sequence. A fault of the read leaves CONFIGURED unchanged. -/
def execCfg (f : Nat) (s : State) : Host.Outcome State Fault Refusal :=
  .next (
    if frequencyRejected f then (s.enter .check).raiseError .rangeError 0 0
    else match ((s.enter .check).enter .readMode).readRegister Config.mode1Addr with
      | (none, s') => s'.raiseError .busFault 0 0
      | (some old, s') => cfgSequence f old s')

end Sys2Proof.Machine
end

