-- ==== Sys2Proof/Machine/Dispatch.lean ====
section
/-! DEFINITION. The dispatch: one arm per command (30_encoding.md rule R60). -/

namespace Sys2Proof.Machine

def exec (i : Instr) (s : State) : Host.Outcome State Fault Refusal :=
  match i with
  | .enc inv value => Sys2Proof.Machine.execEnc inv value s
  | .dec inv on off => Sys2Proof.Machine.execDec inv on off s
  | .setd ch inv value => Sys2Proof.Machine.execSetd ch inv value s
  | .getd ch inv => Sys2Proof.Machine.execGetd ch inv s
  | .cfg frequency => Sys2Proof.Machine.execCfg frequency s

end Sys2Proof.Machine
end

