-- ==== Sys2Proof/Machine/Step.lean ====
section
/-! DEFINITION. One step is one host input: a whole command (10_state.md rule R33), or a reset (70_reset_and_hazards.md
rule R130). There is no program counter and nothing is fetched (10_state.md rule R21): the host presents commands, and
with none presented the block waits. -/

namespace Sys2Proof.Machine

/-- One step. -/
def step (s : State) : Host.Outcome State Fault Refusal :=
  match s.takeInput with
  | (none, _) => .next s
  | (some .reset, s') => .next s'.resetBlock
  | (some (.command w), s') =>
    match decode w with
    | .ok i => exec i s'
    | .error _ => .next s'.illegalCommand

/-- The state in which the host presents that word next, numbered as spec/opcode_table.json numbers it (log entry 10). -/
def State.withFetchWord (s : State) (nbits w : Nat) : State := s.present (tableWord nbits w)

end Sys2Proof.Machine
end

