-- ==== Sys2Proof/Machine/Assembler.lean ====
section
/-! DEFINITION. The assembler of 30_encoding.md rule R69: the text of a command, one line, to its word. Log entry 11. -/

namespace Sys2Proof.Machine

/-- The mnemonics of rule R69, with the optional suffix `.inv`; CFG has none. -/
def mnemonicTable : List (List Char × Op × Bool) :=
  [ ("enc".toList, .enc, false), ("enc.inv".toList, .enc, true),
    ("dec".toList, .dec, false), ("dec.inv".toList, .dec, true),
    ("setd".toList, .setd, false), ("setd.inv".toList, .setd, true),
    ("getd".toList, .getd, false), ("getd.inv".toList, .getd, true),
    ("cfg".toList, .cfg, false) ]

/-- The value of a decimal or hexadecimal digit. -/
def digitOf (c : Char) : Option Nat :=
  if '0' ≤ c ∧ c ≤ '9' then some (c.toNat - '0'.toNat)
  else if 'a' ≤ c ∧ c ≤ 'f' then some (c.toNat - 'a'.toNat + 10)
  else if 'A' ≤ c ∧ c ≤ 'F' then some (c.toNat - 'A'.toNat + 10)
  else none

/-- The value of digits after those that made `acc`. -/
def digitsFrom (base : Nat) : List Char → Nat → Option Nat
  | [], acc => some acc
  | c :: cs, acc =>
    match digitOf c with
    | some d => if d < base then digitsFrom base cs (acc * base + d) else none
    | none => none

/-- A number without a sign: decimal, or hexadecimal with the prefix `0x` (rule R69). -/
def numberOf : List Char → Option Nat
  | [] => none
  | ['0', 'x'] => none
  | '0' :: 'x' :: ds => digitsFrom 16 ds 0
  | ds => digitsFrom 10 ds 0

/-- A number with an optional minus sign (rule R69: a `value` may be negative). -/
def integerOf : List Char → Option Int
  | '-' :: cs => (numberOf cs).map fun n => -(n : Int)
  | cs => (numberOf cs).map fun n => (n : Int)

/-- The parts between commas. -/
def splitCommas : List Char → List (List Char)
  | [] => [[]]
  | c :: cs =>
    if c = ',' then [] :: splitCommas cs
    else match splitCommas cs with
      | [] => [[c]]
      | part :: parts => (c :: part) :: parts

/-- A part without the spaces around it. -/
def trimSpaces (cs : List Char) : List Char :=
  ((cs.dropWhile (· = ' ')).reverse.dropWhile (· = ' ')).reverse

/-- All of a list's values, or none. -/
def allSome : List (Option Int) → Option (List Int)
  | [] => some []
  | some v :: rest => (allSome rest).map (v :: ·)
  | none :: _ => none

/-- The word of a command whose operands fit; else the assembler refuses (rule R69). -/
def emit (i : Instr) : Option Word := if i.wellFormed then some (encode i) else none

/-- The channel an operand names; outside 0 to 15 the assembler refuses (rule R69). -/
def channelOf (n : Int) : Option Channel :=
  if h : 0 ≤ n ∧ n ≤ 15 then some ⟨n.toNat, by omega⟩ else none

/-- The word of an operation, its suffix and its operands (rule R69). -/
def assembleOperands : Op → Bool → List Int → Option Word
  | .enc, inv, [value] => emit (.enc inv value)
  | .dec, inv, [on, off] => if 0 ≤ on ∧ 0 ≤ off then emit (.dec inv on.toNat off.toNat) else none
  | .setd, inv, [ch, value] => (channelOf ch).bind fun c => emit (.setd c inv value)
  | .getd, inv, [ch] => (channelOf ch).bind fun c => emit (.getd c inv)
  | .cfg, false, [frequency] => if 0 ≤ frequency then emit (.cfg frequency.toNat) else none
  | _, _, _ => none

/-- The word of a line of text, or none where the assembler refuses it (rule R69). -/
def assemble (line : List Char) : Option Word :=
  let text := trimSpaces line
  match mnemonicTable.find? (fun row => row.1 = text.takeWhile (· ≠ ' ')) with
  | none => none
  | some (_, op, inv) =>
    match allSome ((splitCommas (text.dropWhile (· ≠ ' '))).map fun part => integerOf (trimSpaces part)) with
    | none => none
    | some operands => assembleOperands op inv operands

end Sys2Proof.Machine
end

