-- ==== Sys2Proof/Safety.lean ====
section
/-! DEFINITION. What a safe state and a safe run are, in the terms the statements use: the addresses the controller owns
(20_memory.md rule R41), a bus monitor that accepts exactly the event orders of the three bus commands (20_memory.md rules
R46 to R49 and R53, 41_channel.md rules R93 to R95, 70_reset_and_hazards.md rule R134) and computes CONFIGURED from H
alone (10_state.md rule R22), the invariant built on it, and a run's observation (70_reset_and_hazards.md rule R141). -/

namespace Sys2Proof.Machine

/-- Start addresses of channel blocks: 0x06, 0x0A, ..., 0x42 (rules R42, R47 and R90). -/
def isBlockAddr (a : Nat) : Bool := decide (6 ≤ a) && decide (a ≤ 0x42) && decide (a % 4 = 2)

/-- The addresses the controller owns (rule R41). -/
def ownedAddr (a : Nat) : Bool :=
  decide (a = 0x00) || decide (a = 0xFE) || (decide (0x06 ≤ a) && decide (a ≤ 0x45))

/-- The four bytes are a pair the encoder writes (rules R67 and R83). -/
def imageBlock : List Byte → Bool
  | [b0, b1, b2, b3] => (decodeDuty (half b0 b1).toNat (half b2 b3).toNat false).isSome
  | _ => false

/-- Where a bus monitor stands in the event order of a command; `old` is the byte CFG's MODE1 read returned. -/
inductive MonitorPos where
  /-- Between commands. -/
  | rest
  | modeRead (old : Byte)
  | asleep (old : Byte)
  | prescaled (old : Byte)
  | restored (old : Byte)
  | settled (old : Byte)
  /-- An event came that no command issues there. -/
  | broken
  deriving DecidableEq, Repr

/-- A bus monitor: its place, and CONFIGURED as rule R22 reads it off the events. -/
structure Monitor where
  pos : MonitorPos
  configured : Bool
  deriving DecidableEq, Repr

/-- The monitor right after reset. -/
def Monitor.start : Monitor := ⟨.rest, false⟩

/-- An event that no command issues here. -/
def Monitor.break (m : Monitor) : Monitor := ⟨.broken, m.configured⟩

/-- The monitor in the middle of CFG, where only one-byte writes to `addr` of an accepted byte may come: a fault ends the
command and clears CONFIGURED (rule R95). -/
def Monitor.expectWrite (m : Monitor) (e : Event) (addr : Nat) (accept : Byte → Bool) (next : Monitor) : Monitor :=
  match e.kind with
  | .busWrite device a [b] =>
    if device = Config.chipAddr ∧ a = addr ∧ accept b then
      match e.outcome with
      | .ok => next
      | .fault => ⟨.rest, false⟩
    else m.break
  | _ => m.break

/-- The monitor between commands: a block write of an encoder's pair, a block read, or the MODE1 read that opens CFG. A
faulted read returns no bytes (rule R52). -/
def Monitor.observeAtRest (m : Monitor) (e : Event) : Monitor :=
  match e.kind with
  | .busWrite device a bytes =>
    if device = Config.chipAddr ∧ isBlockAddr a ∧ imageBlock bytes then m else m.break
  | .busRead device a n bytes =>
    if device = Config.chipAddr then
      match e.outcome with
      | .fault =>
        if ((a = Config.mode1Addr ∧ n = 1) ∨ (isBlockAddr a ∧ n = 4)) ∧ bytes = [] then m else m.break
      | .ok =>
        if a = Config.mode1Addr ∧ n = 1 then
          match bytes with
          | [old] => ⟨.modeRead old, m.configured⟩
          | _ => m.break
        else if isBlockAddr a ∧ n = 4 ∧ bytes.length = 4 then m
        else m.break
    else m.break
  | .wait _ => m.break

/-- One event seen by the monitor. -/
def Monitor.observe (m : Monitor) (e : Event) : Monitor :=
  match m.pos with
  | .rest => m.observeAtRest e
  | .modeRead old =>
    m.expectWrite e Config.mode1Addr (fun b => decide (b = sleepValue old)) ⟨.asleep old, m.configured⟩
  | .asleep old => m.expectWrite e Config.prescaleAddr (fun _ => true) ⟨.prescaled old, m.configured⟩
  | .prescaled old =>
    m.expectWrite e Config.mode1Addr (fun b => decide (b = restoreValue old)) ⟨.restored old, m.configured⟩
  | .restored old =>
    if e = ⟨.wait Config.tSettle, .ok⟩ then ⟨.settled old, m.configured⟩ else m.break
  | .settled old => m.expectWrite e Config.mode1Addr (fun b => decide (b = aiValue old)) ⟨.rest, true⟩
  | .broken => m

/-- The monitor after a whole history. -/
def monitorOf (h : List Event) : Monitor := h.foldl Monitor.observe Monitor.start

/-- The invariant: the sequencer is idle between commands (rules R33 and R117); the register image and the deterministic
oracle's image are canonical; and H is a sequence of whole commands from which CONFIGURED is read off as rule R22 says. -/
structure State.Inv (s : State) : Prop where
  idle : s.phase = .idle
  image : s.chip.wf = true
  oracle : s.written.wf = true
  events : monitorOf s.history = ⟨.rest, s.configured⟩

/-- Only addresses the controller owns have been reached: both images list no other (rule R41). -/
structure State.OwnedOnly (s : State) : Prop where
  image : ∀ c ∈ s.chip, ownedAddr c.1 = true
  oracle : ∀ c ∈ s.written, ownedAddr c.1 = true

/-- The byte an event that is an ok write sends to an address, if it does. -/
def Event.okWrite? (e : Event) (a : Nat) : Option Byte :=
  match e.kind, e.outcome with
  | .busWrite _ addr bytes, .ok => if addr ≤ a then bytes[a - addr]? else none
  | _, _ => none

/-- The last byte written to an address by a write of H that completed ok (rule R51); none where no such write exists. -/
def lastOkWrite (h : List Event) (a : Nat) : Option Byte :=
  h.foldl (fun last e => (e.okWrite? a).or last) none

/-- The deterministic oracle's image is what H says (rule R51). -/
def State.OracleFollowsHistory (s : State) : Prop := ∀ a, s.written.byte? a = lastOkWrite s.history a

/-- The event is a bus transaction (rule R28). -/
def Event.isTransaction (e : Event) : Bool :=
  match e.kind with
  | .busWrite _ _ _ => true
  | .busRead _ _ _ _ => true
  | .wait _ => false

/-- No other master reaches that register during the first n transactions from here on, nor between them. -/
def State.OthersAvoid (s : State) (n a : Nat) : Prop :=
  ∀ k < n, ∀ c ∈ (s.drawAt k).others, c.1.toNat ≠ a

/-- The register keeps its byte across the sleep that the k-th transaction from here on puts the chip into: the
deterministic oracle is assumed there, or the chip does not lose that register (60_exceptions.md rule R126). -/
def State.SleepKeeps (s : State) (k a : Nat) : Prop :=
  (s.drawAt k).deterministic = true ∨ ∀ c ∈ (s.drawAt k).lost, c.1.toNat ≠ a

/-- The range check of a command fails (60_exceptions.md rule R111): a duty value outside 0 to 4095, or a frequency of 0
to 23 hertz. -/
def operandRejected : Instr → Bool
  | .enc _ value => decide (value < 0) || decide (4095 < value)
  | .dec _ _ _ => false
  | .setd _ _ value => decide (value < 0) || decide (4095 < value)
  | .getd _ _ => false
  | .cfg frequency => decide (frequency ≤ 23)

/-- The command is one that CONFIGURED gates (60_exceptions.md rule R114). -/
def needsConfigured : Instr → Bool
  | .enc _ _ => false
  | .dec _ _ _ => false
  | .setd _ _ _ => true
  | .getd _ _ => true
  | .cfg _ => false

/-- The registers a command's own transactions store to (rules R85, R86, R93, R94 and R95); a read stores nothing unless
another master overlaps it (rule R135). -/
def storesAt (i : Instr) (s : State) (a : Nat) : Prop :=
  match i with
  | .enc _ _ => False
  | .dec _ _ _ => False
  | .setd ch _ _ => chaddr ch ≤ a ∧ a < chaddr ch + 4
  | .getd ch _ => s.draw.overlapped = true ∧ chaddr ch ≤ a ∧ a < chaddr ch + 4
  | .cfg _ => a = Config.mode1Addr ∨ a = Config.prescaleAddr

/-- A command that ran `n` bus transactions from `s` ended in `t`: the block is idle, what the host will present, the
chip's draws and the free values of the later transactions are as they were, and each transaction has taken a new draw
of the channels' outputs (the last is the model's choice, log entry 16). -/
structure EndsIn (s : State) (n : Nat) (t : State) : Prop where
  idle : t.phase = .idle
  inbox : t.inbox = s.inbox
  chipEpoch : t.chipEpoch = s.chipEpoch
  outputEpoch : t.outputEpoch = s.outputEpoch + n
  drawAt : ∀ k, t.drawAt k = s.drawAt (k + n)

/-- The deterministic oracle answers in `t` for a register what it answered in `s`. -/
structure OracleKept (s t : State) (a : Nat) : Prop where
  lastWrite : t.written.byte? a = s.written.byte? a
  answers : t.oracleByte a = s.oracleByte a

/-- A register holds in `t` what it held in `s`, and the deterministic oracle answers the same for it. -/
structure RegisterKept (s t : State) (a : Nat) : Prop extends OracleKept s t a where
  listed : t.chip.byte? a = s.chip.byte? a
  holds : t.chipByte a = s.chipByte a

/-- The observation of a run (rule R141). -/
structure Observation where
  responses : List Response
  configured : Bool
  history : List Event
  deriving DecidableEq, Repr

/-- What the host observes of a state (rule R141). -/
def State.observation (s : State) : Observation := ⟨s.responses, s.configured, s.history⟩

/-- The image of the owned addresses that the observation adds under the deterministic oracle (rules R41, R51 and
R141). -/
def State.ownedImage (s : State) : List (Nat × Byte) :=
  (Config.mode1Addr :: Config.prescaleAddr :: (List.range 64).map (Config.chBase + ·)).map fun a => (a, s.chipByte a)

end Sys2Proof.Machine
end

