-- ==== Sys2Proof/Certificates/Slice0/Obligations.lean ====
section
/-! DEFINITION. The statements for the provers, one per rule or group of rules of the spec. -/

open Sys2Proof Sys2Proof.Machine

/-! ### Encoding -/

/-- Every command that fits a command word comes back from its word (rules R61, R64, R65 and R68). -/
def Obligations.DecodeEncodeAgree : Prop :=
  ∀ i : Instr, i.wellFormed = true → decode (encode i) = .ok i

/-- Every legal word is the word of the command it decodes to, so decoding is injective on legal words (rules R64, R65
and R68). -/
def Obligations.EncodeDecodeAgree : Prop :=
  ∀ (w : Word) (i : Instr), decode w = .ok i → i.wellFormed = true ∧ encode i = w

/-- Rule R68: which words are legal, what the record of a legal word is, and that the table's rows say the same. -/
def Obligations.DecoderFollowsPseudocodeAndTable : Prop :=
  ∀ w : Word,
    ((∃ i, decode w = .ok i) ↔
      (field w 3 0 = 1 ∨ field w 3 0 = 2 ∨ field w 3 0 = 3 ∨ field w 3 0 = 4 ∨ field w 3 0 = 5) ∧
      field w 15 9 = 0 ∧ field w 63 48 = 0 ∧
      (field w 3 0 = 1 → field w 7 4 = 0 ∧ field w 47 32 = 0) ∧
      (field w 3 0 = 2 → field w 7 4 = 0) ∧
      (field w 3 0 = 3 → field w 47 32 = 0) ∧
      (field w 3 0 = 4 → field w 31 16 = 0 ∧ field w 47 32 = 0) ∧
      (field w 3 0 = 5 → field w 7 4 = 0 ∧ field w 8 8 = 0 ∧ field w 47 32 = 0)) ∧
    (∀ i, decode w = .ok i →
      i.cmd.op.code = field w 3 0 ∧ i.cmd.ch = field w 7 4 ∧ i.cmd.inv.toNat = field w 8 8 ∧
      i.cmd.a = field w 31 16 ∧ i.cmd.b = field w 47 32) ∧
    ((∃ i, decode w = .ok i) ↔
      ∃ r ∈ opcodeTable, r.op.code = field w 3 0 ∧ w &&& r.mask = r.pattern)

/-- Rule R65: the operands of a decoded word, taken from its bits. -/
def Obligations.OperandsAssembledFromFields : Prop :=
  ∀ (w : Word) (i : Instr), decode w = .ok i →
    match i with
    | .enc inv value => inv = w.getLsbD 8 ∧ value = (w.extractLsb' 16 16).toInt
    | .dec inv on off =>
      inv = w.getLsbD 8 ∧ on = (w.extractLsb' 16 16).toNat ∧ off = (w.extractLsb' 32 16).toNat
    | .setd ch inv value =>
      ch.val = (w.extractLsb' 4 4).toNat ∧ inv = w.getLsbD 8 ∧ value = (w.extractLsb' 16 16).toInt
    | .getd ch inv => ch.val = (w.extractLsb' 4 4).toNat ∧ inv = w.getLsbD 8
    | .cfg frequency => frequency = (w.extractLsb' 16 16).toNat

/-- Rule R62: the opcode of every command's word, and that the other values of OP are reserved. -/
def Obligations.OpcodeValues : Prop :=
  (∀ i : Instr, i.wellFormed = true →
    (encode i).extractLsb' 0 4 =
      match i with
      | .enc _ _ => 0x1#4
      | .dec _ _ _ => 0x2#4
      | .setd _ _ _ => 0x3#4
      | .getd _ _ => 0x4#4
      | .cfg _ => 0x5#4) ∧
  ∀ w : Word, w.extractLsb' 0 4 = 0x0#4 ∨ 0x6#4 ≤ w.extractLsb' 0 4 → decode w = .error .reservedOpcode

/-- Words written out from the field table of rule R61 decode to the commands they stand for. -/
def Obligations.WrittenWordsDecode : Prop :=
  decode 0x00000000FFFF0101#64 = .ok (.enc true (-1)) ∧
  decode 0x0000100000010002#64 = .ok (.dec false 1 4096) ∧
  decode 0x00000000080001F3#64 = .ok (.setd 15 true 2048) ∧
  decode 0x0000000000000194#64 = .ok (.getd 9 true) ∧
  decode 0x0000000003E80005#64 = .ok (.cfg 1000) ∧
  decode 0x0000000000320105#64 = .error .unusedField

/-- Rule R66: the packed response word's fields, and that a command word or a response word carried as bytes is
little-endian. -/
def Obligations.ResponseWordAndByteOrder : Prop :=
  (∀ r : Response,
    r.pack.extractLsb' 0 8 = r.status.code ∧ r.pack.extractLsb' 8 8 = 0#8 ∧ r.pack.extractLsb' 16 16 = r.r0 ∧
    r.pack.extractLsb' 32 16 = r.r1 ∧ r.pack.extractLsb' 48 16 = 0#16) ∧
  (∀ r : Response, r.bytes = (List.range 8).map fun k => r.pack.extractLsb' (8 * k) 8) ∧
  ∀ (w : Word) (rest : List Byte),
    decodeBytes (((List.range 8).map fun k => w.extractLsb' (8 * k) 8) ++ rest) =
      match decode w with
      | .ok i => .ok (i, rest)
      | .error e => .error e

/-- Rule R69, the operand ranges: the assembler gives the word of a command exactly where every operand fits, and
refuses it otherwise. -/
def Obligations.AssemblerRefusesOperandsOutOfRange : Prop :=
  ∀ (inv : Bool) (x y : Int) (w : Word),
    (assembleOperands .enc inv [x] = some w ↔
      -32768 ≤ x ∧ x ≤ 32767 ∧ w = encode (.enc inv x)) ∧
    (assembleOperands .dec inv [x, y] = some w ↔
      0 ≤ x ∧ x ≤ 65535 ∧ 0 ≤ y ∧ y ≤ 65535 ∧ w = encode (.dec inv x.toNat y.toNat)) ∧
    (assembleOperands .setd inv [x, y] = some w ↔
      ∃ ch : Channel, (ch.val : Int) = x ∧ -32768 ≤ y ∧ y ≤ 32767 ∧ w = encode (.setd ch inv y)) ∧
    (assembleOperands .getd inv [x] = some w ↔
      ∃ ch : Channel, (ch.val : Int) = x ∧ w = encode (.getd ch inv)) ∧
    (assembleOperands .cfg inv [x] = some w ↔
      inv = false ∧ 0 ≤ x ∧ x ≤ 65535 ∧ w = encode (.cfg x.toNat))

/-! ### Steps, reset and responses -/

/-- Rules R21 and R33: where the host presents a legal word, the step is that command, run on the state in which the
host has presented it. -/
def Obligations.StepRunsDecodedCommand : Prop :=
  ∀ (s : State) (w : Word) (rest : List HostInput) (i : Instr),
    s.inbox = .command w :: rest → decode w = .ok i → step s = exec i { s with inbox := rest }

/-- Rule R115: a word with a reserved OP, a nonzero reserved field or a nonzero field its opcode does not use answers
IllegalCommand, with R0 = R1 = 0, and nothing else happens. -/
def Obligations.IllegalWordsAnswerIllegalCommand : Prop :=
  ∀ (s : State) (w : Word) (rest : List HostInput),
    s.inbox = .command w :: rest →
    ((w.extractLsb' 0 4 = 0 ∨ 6 ≤ (w.extractLsb' 0 4).toNat) ∨
      w.extractLsb' 9 7 ≠ 0 ∨ w.extractLsb' 48 16 ≠ 0 ∨
      (w.extractLsb' 0 4 = 1 ∧ (w.extractLsb' 4 4 ≠ 0 ∨ w.extractLsb' 32 16 ≠ 0)) ∨
      (w.extractLsb' 0 4 = 2 ∧ w.extractLsb' 4 4 ≠ 0) ∨
      (w.extractLsb' 0 4 = 3 ∧ w.extractLsb' 32 16 ≠ 0) ∨
      (w.extractLsb' 0 4 = 4 ∧ (w.extractLsb' 16 16 ≠ 0 ∨ w.extractLsb' 32 16 ≠ 0)) ∨
      (w.extractLsb' 0 4 = 5 ∧
        (w.extractLsb' 4 4 ≠ 0 ∨ w.getLsbD 8 = true ∨ w.extractLsb' 32 16 ≠ 0))) →
    step s =
      .next { s with
        inbox := rest
        phase := .idle
        responses := s.responses ++ [⟨.illegalCommand, 0, 0⟩] }

/-- Rule R130: with no command presented, the block waits. That it waits by steps that change nothing is the model's
choice (log entry 10). -/
def Obligations.WaitsForCommand : Prop :=
  ∀ s : State, s.inbox = [] → step s = .next s

/-- Rule R34: the state after reset; every byte of the chip is a draw. -/
def Obligations.ResetLeavesBlockIdle : Prop :=
  State.reset.configured = false ∧ State.reset.responses = [] ∧ State.reset.history = [] ∧
  State.reset.phase = .idle ∧
  ∀ a, State.reset.chip.byte? a = none ∧ State.reset.chipByte a = Config.initialByte State.reset.chipEpoch a ∧
    State.reset.oracleByte a = Config.initialByte State.reset.chipEpoch a

/-- Rules R22, R130 and R131: a reset that arrives clears CONFIGURED, H and the responses, performs no transaction,
and leaves every byte of the chip a draw. That it lands between two commands is the model's choice (log entry 9), and
so is that the channels' outputs are a new draw then (log entry 16). -/
def Obligations.ResetInputReturnsBlockToReset : Prop :=
  ∀ (s : State) (rest : List HostInput), s.inbox = .reset :: rest →
    ∃ t, step s = .next t ∧
      t.configured = false ∧ t.history = [] ∧ t.responses = [] ∧ t.phase = .idle ∧ t.inbox = rest ∧
      t.draws = s.draws ∧ t.drawCount = s.drawCount ∧ t.chipEpoch ≠ s.chipEpoch ∧
      t.outputEpoch ≠ s.outputEpoch ∧
      ∀ a, t.chipByte a = Config.initialByte t.chipEpoch a ∧ t.oracleByte a = Config.initialByte t.chipEpoch a

/-- Rules R117, R118 and R33: whatever the host presents, the block ends it and is ready for the next; no step stops. -/
def Obligations.EveryStepAnswersNext : Prop :=
  ∀ s : State, ∃ t, step s = .next t ∧ (s.phase = .idle → t.phase = .idle) ∧
    (s.inbox ≠ [] → t.phase = .idle ∧ t.inbox = s.inbox.tail)

/-- Rule R24: every command hands over one response, and no command can read an earlier one, nor H. -/
def Obligations.ResponseHandedOverNotKept : Prop :=
  ∀ (i : Instr) (s t : State), exec i s = .next t →
    ∃ (r : Response) (evs : List Event),
      t.responses = s.responses ++ [r] ∧ t.history = s.history ++ evs ∧
      ∀ (rs : List Response) (h : List Event),
        exec i { s with responses := rs, history := h } =
          .next { t with responses := rs ++ [r], history := h ++ evs }

/-- Rule R22: CONFIGURED changes only by a reset, by a CFG that returns OK, and by a CFG whose write faults. -/
def Obligations.OnlyResetAndCfgWriteConfigured : Prop :=
  ∀ s t : State, step s = .next t → t.configured ≠ s.configured →
    (∃ rest, s.inbox = .reset :: rest ∧ t.configured = false) ∨
    ∃ w rest f r, s.inbox = .command w :: rest ∧ decode w = .ok (.cfg f) ∧ t.responses = s.responses ++ [r] ∧
      ((r.status = .ok ∧ t.configured = true) ∨
        (r.status = .busFault ∧ t.configured = false ∧
          ∃ pre addr b, t.history = pre ++ [⟨.busWrite Config.chipAddr addr [b], .fault⟩] ∧
            (addr = Config.mode1Addr ∨ addr = Config.prescaleAddr)))

/-- Rule R22: CONFIGURED is read by SETD and GETD only; the other commands do the same whatever it is, but for a CFG
that leaves it as it was. -/
def Obligations.OnlySetdAndGetdReadConfigured : Prop :=
  ∀ (i : Instr) (s t : State) (b : Bool), needsConfigured i = false → exec i s = .next t →
    ∃ c, exec i { s with configured := b } = .next { t with configured := c } ∧
      (c = t.configured ∨ (c = b ∧ t.configured = s.configured))

/-- Rule R116: the order in which the errors are reported, and that the first three leave CHIP and H unchanged. -/
def Obligations.ErrorPriority : Prop :=
  (∀ (s : State) (w : Word) (rest : List HostInput) (e : Illegal),
    s.inbox = .command w :: rest → decode w = .error e →
    ∃ t, step s = .next t ∧ t.responses = s.responses ++ [⟨.illegalCommand, 0, 0⟩] ∧
      t.chip = s.chip ∧ t.history = s.history) ∧
  ∀ (i : Instr) (s t : State), exec i s = .next t →
    ∃ (r : Response) (evs : List Event),
      t.responses = s.responses ++ [r] ∧ t.history = s.history ++ evs ∧
      (operandRejected i = true → r.status = .rangeError ∧ evs = [] ∧ t.chip = s.chip) ∧
      (operandRejected i = false →
        (needsConfigured i = true ∧ s.configured = false →
          r.status = .unconfiguredAccess ∧ evs = [] ∧ t.chip = s.chip) ∧
        (¬(needsConfigured i = true ∧ s.configured = false) →
          ((∃ e ∈ evs, e.outcome = .fault) → r.status = .busFault) ∧
          ((∀ e ∈ evs, e.outcome = .ok) →
            match i with
            | .dec inv on off => r.status = if (decodeDuty on off inv).isSome then .ok else .decodeError
            | .getd ch _ =>
              ∃ bytes, evs = [⟨.busRead Config.chipAddr (chaddr ch) 4 bytes, .ok⟩] ∧
                r.status = if imageBlock bytes then .ok else .decodeError
            | _ => r.status = .ok)))

/-- Rule R113, with R98's reading of OK: BusFault is answered exactly where a transaction faulted; R0 = R1 = 0; the
transactions before the faulted one were performed, the faulted one is the last event, and any other answer means that
every transaction was ok. -/
def Obligations.BusFaultMeansLastTransactionFaulted : Prop :=
  ∀ (i : Instr) (s t : State), exec i s = .next t →
    ∃ (r : Response) (evs : List Event),
      t.responses = s.responses ++ [r] ∧ t.history = s.history ++ evs ∧
      (r.status = .busFault →
        r.r0 = 0 ∧ r.r1 = 0 ∧ ∃ pre k, evs = pre ++ [⟨k, .fault⟩] ∧ ∀ e ∈ pre, e.outcome = .ok) ∧
      (r.status ≠ .busFault → ∀ e ∈ evs, e.outcome = .ok)

/-- The frame of every command (rules R51, R85, R86, R93, R94, R95, R117 and R126): for every register of the chip
that it does not store to, and that no other master reaches during its transactions (log entry 13), the deterministic
oracle answers what it did before, and the register holds what it did before; for a CFG that clause takes as a premise
that the register is kept across the sleep its second transaction puts the chip into (log entry 17). CONFIGURED is as
before unless the command is CFG; what the host will present, the chip's draws and the free values of the later
transactions are as before; and H and the responses only grow. `EndsIn` also says that each transaction, a read among
them, has taken a new draw of the channels' outputs: that is the model's choice, log entry 16, and no rule of the
spec. -/
def Obligations.CommandLeavesTheRestAlone : Prop :=
  ∀ (i : Instr) (s t : State), exec i s = .next t →
    (∃ n, EndsIn s n t ∧ n ≤ 5 ∧ ∀ a, ¬storesAt i s a → s.OthersAvoid n a →
      OracleKept s t a ∧ (((∃ f, i = .cfg f) → s.SleepKeeps 1 a) → RegisterKept s t a)) ∧
    ((∀ f, i ≠ .cfg f) → t.configured = s.configured) ∧
    (∃ evs, t.history = s.history ++ evs) ∧ ∃ r, t.responses = s.responses ++ [r]

/-- Rule R42, over every event a command appends: no address outside the owned set of rule R41 is produced; and the
range of the channel addresses. -/
def Obligations.EventsStayInOwnedAddresses : Prop :=
  (∀ (i : Instr) (s t : State) (evs : List Event), exec i s = .next t → t.history = s.history ++ evs →
    ∀ e ∈ evs,
      match e.kind with
      | .busWrite device addr bytes =>
        device = Config.chipAddr ∧ bytes ≠ [] ∧ ∀ k < bytes.length, ownedAddr (addr + k) = true
      | .busRead device addr n _ => device = Config.chipAddr ∧ 0 < n ∧ ∀ k < n, ownedAddr (addr + k) = true
      | .wait t => t = Config.tSettle) ∧
  (∀ ch : Channel, 0x06 ≤ chaddr ch ∧ chaddr ch ≤ 0x42) ∧ chaddr 0 = 0x06 ∧ chaddr 15 + 3 = 0x45

/-- Rule R110: the codes, each status its own, and the commands that raise each; the codes 0x06 to 0xFF are never
returned. -/
def Obligations.StatusCodes : Prop :=
  (Status.ok.code = 0x00#8 ∧ Status.rangeError.code = 0x01#8 ∧ Status.decodeError.code = 0x02#8 ∧
    Status.busFault.code = 0x03#8 ∧ Status.unconfiguredAccess.code = 0x04#8 ∧ Status.illegalCommand.code = 0x05#8) ∧
  (∀ r : Response, (r.pack.extractLsb' 0 8).toNat < 0x06) ∧
  (∀ (i : Instr) (s t : State), exec i s = .next t →
    ∃ r : Response, t.responses = s.responses ++ [r] ∧
      match i with
      | .enc _ _ => r.status ∈ [.ok, .rangeError]
      | .dec _ _ _ => r.status ∈ [.ok, .decodeError]
      | .setd _ _ _ => r.status ∈ [.ok, .rangeError, .busFault, .unconfiguredAccess]
      | .getd _ _ => r.status ∈ [.ok, .decodeError, .busFault, .unconfiguredAccess]
      | .cfg _ => r.status ∈ [.ok, .rangeError, .busFault]) ∧
  ∀ (s : State) (w : Word) (rest : List HostInput) (e : Illegal),
    s.inbox = .command w :: rest → decode w = .error e →
    ∃ t, step s = .next t ∧ t.responses = s.responses ++ [⟨.illegalCommand, 0, 0⟩]

/-! ### The codec -/

/-- Rule R85: a value in range gives its register pair in R0 and R1; nothing else is written. -/
def Obligations.EncAnswersPair : Prop :=
  ∀ (inv : Bool) (value x : Int) (s : State), 0 ≤ value → value ≤ 4095 →
    x = (if inv then 4095 - value else value) →
    exec (.enc inv value) s =
      .next { s with
        phase := .idle
        responses := s.responses ++
          [if x = 0 then ⟨.ok, 0, 4096⟩
            else if x = 4095 then ⟨.ok, 4096, 0⟩
            else ⟨.ok, 0, BitVec.ofInt 16 x⟩] }

/-- Rules R80 and R85: a value outside 0 to 4095 answers RangeError whatever the invert flag; nothing else is
written. -/
def Obligations.EncRejectsOutOfRange : Prop :=
  ∀ (inv : Bool) (value : Int) (s : State), value < 0 ∨ 4095 < value →
    exec (.enc inv value) s =
      .next { s with phase := .idle, responses := s.responses ++ [⟨.rangeError, 0, 0⟩] }

/-- Rules R81 and R86: the three patterns of the encoder's image give their value, complemented where the invert flag is
set; nothing else is written. -/
def Obligations.DecAnswersValue : Prop :=
  ∀ (inv : Bool) (on off raw : Nat) (s : State),
    (on = 0 ∧ off = 4096 ∧ raw = 0) ∨ (on = 4096 ∧ off = 0 ∧ raw = 4095) ∨
      (on = 0 ∧ 1 ≤ off ∧ off ≤ 4094 ∧ raw = off) →
    exec (.dec inv on off) s =
      .next { s with
        phase := .idle
        responses := s.responses ++ [⟨.ok, BitVec.ofNat 16 (if inv then 4095 - raw else raw), 0⟩] }

/-- Rules R81, R86 and R112: any other pattern answers DecodeError with the pattern itself; nothing else is written. -/
def Obligations.DecRejectsOtherPatterns : Prop :=
  ∀ (inv : Bool) (on off : Nat) (s : State), on ≤ 65535 → off ≤ 65535 →
    ¬(on = 0 ∧ off = 4096) → ¬(on = 4096 ∧ off = 0) → ¬(on = 0 ∧ 1 ≤ off ∧ off ≤ 4094) →
    ∃ r, exec (.dec inv on off) s = .next { s with phase := .idle, responses := s.responses ++ [r] } ∧
      r.status = .decodeError ∧ r.r0.toNat = on ∧ r.r1.toNat = off

/-- Rule R82: decoding what was encoded gives the value back, in the codec and over the two commands. -/
def Obligations.CodecRoundTrip : Prop :=
  ∀ (inv : Bool) (value : Nat), value ≤ 4095 →
    (∃ p, encodeDuty value inv = some p ∧ decodeDuty p.on p.off inv = some value) ∧
    ∀ s : State, ∃ t r, exec (.enc inv value) s = .next t ∧ t.responses = s.responses ++ [r] ∧
      exec (.dec inv r.r0.toNat r.r1.toNat) t =
        .next { t with phase := .idle, responses := t.responses ++ [⟨.ok, BitVec.ofNat 16 value, 0⟩] }

/-- Rule R83: the image of the encoder, its injectivity for each invert flag, and that the decoder succeeds exactly on
the image. -/
def Obligations.EncoderImage : Prop :=
  ∀ inv : Bool,
    (∀ p : RegPair, (∃ value : Int, encodeDuty value inv = some p) ↔
      p = ⟨0, 4096⟩ ∨ p = ⟨4096, 0⟩ ∨ ∃ v, 1 ≤ v ∧ v ≤ 4094 ∧ p = ⟨0, v⟩) ∧
    (∀ (v v' : Int) (p : RegPair), encodeDuty v inv = some p → encodeDuty v' inv = some p → v = v') ∧
    ∀ p : RegPair, (decodeDuty p.on p.off inv).isSome = true ↔ ∃ value : Int, encodeDuty value inv = some p

/-- Rule R84: the invert flag is a complement, before encoding and after decoding. -/
def Obligations.InvertIsComplement : Prop :=
  (∀ value : Int, 0 ≤ value → value ≤ 4095 → encodeDuty value true = encodeDuty (4095 - value) false) ∧
  (∀ on off v : Nat, decodeDuty on off false = some v ↔ v ≤ 4095 ∧ decodeDuty on off true = some (4095 - v)) ∧
  encodeDuty 0 true = some ⟨4096, 0⟩ ∧ encodeDuty 4095 true = some ⟨0, 4096⟩

/-! ### SETD and GETD

An event's device is the model's own field (log entry 6); what an overlapped transaction leaves is log entry 7; what other
masters reach of the chip beside the block's own transactions is log entry 13; that each transaction takes a new draw of
the channels' outputs, a clause of `EndsIn`, is log entry 16. -/

/-- Rule R90: the channel addresses. -/
def Obligations.ChannelAddresses : Prop :=
  ∀ ch : Channel, chaddr ch = 0x06 + 4 * ch.val ∧ isBlockAddr (chaddr ch) = true

/-- Rule R27: ON and OFF of a channel as seen in CHIP. -/
def Obligations.ChannelValuesSeenInChip : Prop :=
  ∀ (s : State) (ch : Channel),
    s.onAt ch = (s.chipByte (chaddr ch)).setWidth 16 ||| (s.chipByte (chaddr ch + 1)).setWidth 16 <<< 8 ∧
    s.offAt ch = (s.chipByte (chaddr ch + 2)).setWidth 16 ||| (s.chipByte (chaddr ch + 3)).setWidth 16 <<< 8

/-- Rules R45 and R93: with a value in range, CONFIGURED = 1 and a transaction that does not fault, SETD writes the
channel's block, low bytes first, in one transaction, and answers the pair; with bus exclusion kept the block then holds
the pair, and the deterministic oracle answers it; every other register that no other master reaches is unchanged. -/
def Obligations.SetdWritesChannelBlock : Prop :=
  ∀ (ch : Channel) (inv : Bool) (value : Int) (p : RegPair) (s : State),
    encodeDuty value inv = some p → s.configured = true → s.draw.fault = false →
    ∃ t, exec (.setd ch inv value) s = .next t ∧
      t.responses = s.responses ++ [⟨.ok, BitVec.ofNat 16 p.on, BitVec.ofNat 16 p.off⟩] ∧
      t.history = s.history ++
        [⟨.busWrite Config.chipAddr (chaddr ch)
            [BitVec.ofNat 8 p.on, BitVec.ofNat 8 (p.on / 256), BitVec.ofNat 8 p.off, BitVec.ofNat 8 (p.off / 256)],
          .ok⟩] ∧
      (s.draw.overlapped = false →
        (t.onAt ch).toNat = p.on ∧ (t.offAt ch).toNat = p.off ∧ t.oracleQuad (chaddr ch) = t.chipQuad (chaddr ch)) ∧
      (∀ a, a < chaddr ch ∨ chaddr ch + 4 ≤ a → s.OthersAvoid 1 a → RegisterKept s t a) ∧
      t.configured = true ∧ EndsIn s 1 t

/-- Rules R51, R52, R93 and R113: where SETD's write faults, BusFault is answered, the event says so, the four bytes of
the block are any bytes, the deterministic oracle still answers the last ok write (bus exclusion kept), and every other
register that no other master reaches is unchanged. -/
def Obligations.SetdBusFault : Prop :=
  ∀ (ch : Channel) (inv : Bool) (value : Int) (p : RegPair) (s : State),
    encodeDuty value inv = some p → s.configured = true → s.draw.fault = true →
    ∃ t, exec (.setd ch inv value) s = .next t ∧
      t.responses = s.responses ++ [⟨.busFault, 0, 0⟩] ∧
      t.history = s.history ++ [⟨.busWrite Config.chipAddr (chaddr ch) p.block, .fault⟩] ∧
      t.chipQuad (chaddr ch) = s.draw.left ∧ (s.draw.overlapped = false → t.written = s.written) ∧
      (∀ a, a < chaddr ch ∨ chaddr ch + 4 ≤ a → s.OthersAvoid 1 a → RegisterKept s t a) ∧
      t.configured = true ∧ EndsIn s 1 t

/-- Rules R93, R111, R114 and R116: SETD's two checks, in their order; a command that fails one changes nothing. -/
def Obligations.SetdChecksBeforeTheBus : Prop :=
  ∀ (ch : Channel) (inv : Bool) (value : Int) (s : State),
    (value < 0 ∨ 4095 < value →
      exec (.setd ch inv value) s =
        .next { s with phase := .idle, responses := s.responses ++ [⟨.rangeError, 0, 0⟩] }) ∧
    (0 ≤ value → value ≤ 4095 → s.configured = false →
      exec (.setd ch inv value) s =
        .next { s with phase := .idle, responses := s.responses ++ [⟨.unconfiguredAccess, 0, 0⟩] })

/-- Rules R51 and R94: with CONFIGURED = 1 and a transaction that does not fault, GETD reads the channel's block in
one transaction. The bytes are the last ok written ones under the deterministic oracle with bus exclusion kept, else
any bytes. Where they are a pair of the encoder's image, GETD answers its value; with exclusion kept what the oracle
answers does not change, and no register changes that no other master reaches. -/
def Obligations.GetdReturnsDuty : Prop :=
  ∀ (ch : Channel) (inv : Bool) (v : Nat) (q : Quad) (s : State),
    s.configured = true → s.draw.fault = false →
    q = (if s.draw.deterministic = true ∧ s.draw.overlapped = false then s.oracleQuad (chaddr ch) else s.draw.bytes) →
    decodeDuty (q.b0.toNat + 256 * q.b1.toNat) (q.b2.toNat + 256 * q.b3.toNat) inv = some v →
    ∃ t, exec (.getd ch inv) s = .next t ∧
      t.responses = s.responses ++ [⟨.ok, BitVec.ofNat 16 v, 0⟩] ∧
      t.history = s.history ++
        [⟨.busRead Config.chipAddr (chaddr ch) 4 [q.b0, q.b1, q.b2, q.b3], .ok⟩] ∧
      (s.draw.overlapped = false → t.written = s.written ∧ (s.draw.others = [] → t.chip = s.chip)) ∧
      t.configured = true ∧ EndsIn s 1 t

/-- Rules R94 and R112: where the bytes read are no pair of the encoder's image, GETD answers DecodeError with the raw
pair, and the read stays in H. -/
def Obligations.GetdReportsForeignPattern : Prop :=
  ∀ (ch : Channel) (inv : Bool) (q : Quad) (s : State),
    s.configured = true → s.draw.fault = false →
    q = (if s.draw.deterministic = true ∧ s.draw.overlapped = false then s.oracleQuad (chaddr ch) else s.draw.bytes) →
    decodeDuty (q.b0.toNat + 256 * q.b1.toNat) (q.b2.toNat + 256 * q.b3.toNat) inv = none →
    ∃ t r, exec (.getd ch inv) s = .next t ∧ t.responses = s.responses ++ [r] ∧
      r.status = .decodeError ∧ r.r0.toNat = q.b0.toNat + 256 * q.b1.toNat ∧
      r.r1.toNat = q.b2.toNat + 256 * q.b3.toNat ∧
      t.history = s.history ++
        [⟨.busRead Config.chipAddr (chaddr ch) 4 [q.b0, q.b1, q.b2, q.b3], .ok⟩] ∧
      (s.draw.overlapped = false → t.written = s.written ∧ (s.draw.others = [] → t.chip = s.chip)) ∧
      t.configured = true ∧ EndsIn s 1 t

/-- Rules R94, R113 and R114: GETD with CONFIGURED = 0 answers UnconfiguredAccess and changes nothing; where its read
faults it answers BusFault and no bytes are returned. -/
def Obligations.GetdUnconfiguredOrFaulted : Prop :=
  ∀ (ch : Channel) (inv : Bool) (s : State),
    (s.configured = false →
      exec (.getd ch inv) s =
        .next { s with phase := .idle, responses := s.responses ++ [⟨.unconfiguredAccess, 0, 0⟩] }) ∧
    (s.configured = true → s.draw.fault = true →
      ∃ t, exec (.getd ch inv) s = .next t ∧
        t.responses = s.responses ++ [⟨.busFault, 0, 0⟩] ∧
        t.history = s.history ++ [⟨.busRead Config.chipAddr (chaddr ch) 4 [], .fault⟩] ∧
        (s.draw.overlapped = false → t.written = s.written ∧ (s.draw.others = [] → t.chip = s.chip)) ∧
        t.configured = true ∧ EndsIn s 1 t)

/-- Rules R94 and R136, with the deterministic oracle of rule R51 and bus exclusion as premises: GETD right after a SETD
that returned OK gives the value back with the same invert flag, and its complement with the other. -/
def Obligations.GetdReadsBackSetd : Prop :=
  ∀ (ch : Channel) (inv inv' : Bool) (value : Int) (r : Response) (s t : State),
    exec (.setd ch inv value) s = .next t → t.responses = s.responses ++ [r] → r.status = .ok →
    s.draw.overlapped = false → t.draw.fault = false → t.draw.deterministic = true → t.draw.overlapped = false →
    ∃ u, exec (.getd ch inv') t = .next u ∧
      u.responses = t.responses ++
        [⟨.ok, BitVec.ofInt 16 (if inv' = inv then value else 4095 - value), 0⟩]

/-- Rules R51, R93, R94 and R126, with the deterministic oracle and bus exclusion as premises: any run of command words
that holds no SETD to the channel, a frequency change among them, keeps the duty value that an OK SETD wrote, as a GETD
at its end reads it. A command runs at most five transactions, so the run's own draws and the GETD's are the first
5 * ws.length + 1. -/
def Obligations.DutyKeptAcrossARun : Prop :=
  ∀ (ch : Channel) (inv : Bool) (value : Int) (r : Response) (ws : List Word) (s t u : State),
    exec (.setd ch inv value) s = .next t → t.responses = s.responses ++ [r] → r.status = .ok →
    s.draw.overlapped = false → (∀ k ≤ 5 * ws.length, (t.drawAt k).overlapped = false) →
    t.inbox = ws.map HostInput.command → (∀ w ∈ ws, ∀ inv' v', decode w ≠ .ok (.setd ch inv' v')) →
    Sys2Proof.core.run ws.length t = .next u →
    u.configured = true → u.draw.fault = false → u.draw.deterministic = true →
    ∃ z, exec (.getd ch inv) u = .next z ∧
      z.responses = u.responses ++ [⟨.ok, BitVec.ofInt 16 value, 0⟩]

/-! ### CFG

The log entries named above for SETD and GETD hold here too; what the chip keeps across sleep is log entry 17. -/

/-- Rule R91: the prescale value is OSC_HZ / TICKS / f rounded to the nearest integer, no frequency gives an exact half,
and the values the rule lists. -/
def Obligations.PrescaleRoundsExactly : Prop :=
  (∀ f, 0 < f →
    prescale f = (50000000 + 4096 * f) / (8192 * f) ∧
    2 * (4096 * f * prescale f) ≤ 50000000 + 4096 * f ∧ 50000000 ≤ 2 * (4096 * f * prescale f) + 4096 * f) ∧
  (∀ f k : Nat, 0 < f → 50000000 ≠ (2 * k + 1) * (4096 * f)) ∧
  prescale 24 = 254 ∧ prescale 50 = 122 ∧ prescale 60 = 102 ∧ prescale 200 = 31 ∧ prescale 1000 = 6 ∧
  prescale 1526 = 4 ∧ prescale 2441 = 3 ∧ prescale 23 = 265 ∧ prescale 1 = 6104 ∧
  (∀ f, 2442 ≤ f → f ≤ 4069 → prescale f = 2) ∧ (∀ f, 4070 ≤ f → f ≤ 12207 → prescale f = 1) ∧
  (∀ f, 12208 ≤ f → prescale f = 0) ∧ ∀ f, 1 ≤ f → f ≤ 23 → 255 < prescale f

/-- Rules R95 and R111: a frequency of 0 to 23 hertz answers RangeError, and nothing else happens. -/
def Obligations.CfgRejectsLowFrequency : Prop :=
  ∀ (f : Nat) (s : State), f ≤ 23 →
    exec (.cfg f) s = .next { s with phase := .idle, responses := s.responses ++ [⟨.rangeError, 0, 0⟩] }

/-- Rules R12, R92, R95 and R134: with a frequency of 24 hertz or more and no transaction that faults, CFG performs
the six events of the mandatory sequence in order, answers the prescale value and the MODE1 byte it read, and sets
CONFIGURED; with bus exclusion kept MODE1 and PRESCALE hold what was written last, and the deterministic oracle
answers it (PRESCALE: unless another master has reached the chip since); the deterministic oracle answers the same for
every other register that no other master reaches, which holds the same byte where the chip keeps it across the sleep
(log entry 17). The MODE1 constants 0x7F, 0x10 and 0xA1 are rule R13's, which the spec takes from general knowledge
(log entry 3). -/
def Obligations.CfgRunsFrequencySequence : Prop :=
  ∀ (f p : Nat) (old : Byte) (s : State), 24 ≤ f →
    p = (50000000 + 4096 * f) / (8192 * f) →
    (∀ k < 5, (s.drawAt k).fault = false) →
    old = (if s.draw.deterministic = true ∧ s.draw.overlapped = false then s.oracleByte 0x00 else s.draw.bytes.b0) →
    1 ≤ Config.tSettle ∧ p ≤ 255 ∧
    ∃ t, exec (.cfg f) s = .next t ∧
      t.responses = s.responses ++ [⟨.ok, BitVec.ofNat 16 p, old.setWidth 16⟩] ∧
      t.history = s.history ++
        [⟨.busRead Config.chipAddr 0x00 1 [old], .ok⟩,
          ⟨.busWrite Config.chipAddr 0x00 [(old &&& 0x7F#8) ||| 0x10#8], .ok⟩,
          ⟨.busWrite Config.chipAddr 0xFE [BitVec.ofNat 8 p], .ok⟩,
          ⟨.busWrite Config.chipAddr 0x00 [old], .ok⟩,
          ⟨.wait Config.tSettle, .ok⟩,
          ⟨.busWrite Config.chipAddr 0x00 [old ||| 0xA1#8], .ok⟩] ∧
      ((∀ k < 5, (s.drawAt k).overlapped = false) →
        t.chipByte 0x00 = old ||| 0xA1#8 ∧ t.oracleByte 0x00 = old ||| 0xA1#8 ∧
        t.oracleByte 0xFE = BitVec.ofNat 8 p ∧
        ((∀ k < 5, (s.drawAt k).others = []) → t.chipByte 0xFE = BitVec.ofNat 8 p)) ∧
      (∀ a, a ≠ 0x00 → a ≠ 0xFE → s.OthersAvoid 5 a →
        OracleKept s t a ∧ (s.SleepKeeps 1 a → RegisterKept s t a)) ∧
      t.configured = true ∧ EndsIn s 5 t

/-- Rules R22, R95 and R113: a fault of CFG's MODE1 read ends it with CONFIGURED unchanged, nothing written. -/
def Obligations.CfgReadFault : Prop :=
  ∀ (f : Nat) (s : State), 24 ≤ f → s.draw.fault = true →
    ∃ t, exec (.cfg f) s = .next t ∧
      t.responses = s.responses ++ [⟨.busFault, 0, 0⟩] ∧
      t.history = s.history ++ [⟨.busRead Config.chipAddr 0x00 1 [], .fault⟩] ∧
      (s.draw.overlapped = false → t.written = s.written ∧ (s.draw.others = [] → t.chip = s.chip)) ∧
      (∀ a, a ≠ 0x00 → s.OthersAvoid 1 a → RegisterKept s t a) ∧
      t.configured = s.configured ∧ EndsIn s 1 t

/-- Rules R22, R52, R95, R97 and R113: where the (k+1)-th of CFG's four writes is the first transaction that faults,
the sequence ends there: the events before it stay, its own event says fault, CONFIGURED becomes 0 and BusFault is
answered. With bus exclusion kept, the faulted write's register holds any byte, the deterministic oracle answers the
last ok write, and the earlier writes stay where no other master has reached the chip. For every other register, and
for PRESCALE where the sleep write faults, the chip holds the same byte where it keeps it across the sleep (rule R126;
log entry 17). The MODE1 constants are those of log entry 3. -/
def Obligations.CfgWriteFaultEndsSequence : Prop :=
  ∀ (f p k : Nat) (old : Byte) (s : State) (kinds : List EventKind) (n : Nat), 24 ≤ f → k < 4 →
    p = (50000000 + 4096 * f) / (8192 * f) →
    (∀ j ≤ k, (s.drawAt j).fault = false) → (s.drawAt (k + 1)).fault = true →
    old = (if s.draw.deterministic = true ∧ s.draw.overlapped = false then s.oracleByte 0x00 else s.draw.bytes.b0) →
    kinds =
      [.busRead Config.chipAddr 0x00 1 [old],
        .busWrite Config.chipAddr 0x00 [(old &&& 0x7F#8) ||| 0x10#8],
        .busWrite Config.chipAddr 0xFE [BitVec.ofNat 8 p],
        .busWrite Config.chipAddr 0x00 [old],
        .wait Config.tSettle,
        .busWrite Config.chipAddr 0x00 [old ||| 0xA1#8]] →
    n = (if k = 3 then 5 else k + 1) →
    ∃ t last, exec (.cfg f) s = .next t ∧
      t.responses = s.responses ++ [⟨.busFault, 0, 0⟩] ∧
      kinds[n]? = some last ∧
      t.history = s.history ++ (kinds.take n).map (fun e => ⟨e, .ok⟩) ++ [⟨last, .fault⟩] ∧
      ((∀ j ≤ k + 1, (s.drawAt j).overlapped = false) →
        (k ≠ 1 → t.chipByte 0x00 = (s.drawAt (k + 1)).left.b0) ∧
        (k = 1 → t.chipByte 0xFE = (s.drawAt (k + 1)).left.b0) ∧
        t.oracleByte 0x00 =
          (if k = 0 then s.oracleByte 0x00 else if k = 3 then old else (old &&& 0x7F#8) ||| 0x10#8) ∧
        t.oracleByte 0xFE = (if k ≤ 1 then s.oracleByte 0xFE else BitVec.ofNat 8 p) ∧
        ((∀ j ≤ k + 1, (s.drawAt j).others = []) →
          (k = 1 → t.chipByte 0x00 = (old &&& 0x7F#8) ||| 0x10#8) ∧
          (k = 0 → s.SleepKeeps 1 0xFE → t.chipByte 0xFE = s.chipByte 0xFE) ∧
          (2 ≤ k → t.chipByte 0xFE = BitVec.ofNat 8 p))) ∧
      (∀ a, a ≠ 0x00 → a ≠ 0xFE → s.OthersAvoid (k + 2) a →
        OracleKept s t a ∧ (s.SleepKeeps 1 a → RegisterKept s t a)) ∧
      t.configured = false ∧ EndsIn s (k + 2) t

/-! ### Invariants and runs -/

/-- The invariant, and the two properties that steps keep under a premise on the other masters, hold after reset (rules
R22, R34, R51 and R130). -/
def Obligations.InvariantAtReset : Prop :=
  State.reset.Inv ∧ State.reset.OwnedOnly ∧ State.reset.OracleFollowsHistory

/-- Every step keeps the invariant: H is a sequence of whole commands in the mandatory order, CONFIGURED is what H says
(rule R22), and the two register images are canonical. -/
def Obligations.StepKeepsInvariant : Prop :=
  ∀ s t : State, s.Inv → step s = .next t → t.Inv

/-- Rules R49 and R134: in a state that meets the invariant, H holds a PRESCALE write only right after the MODE1 read
and the ok sleep write built from the byte read, and only the restore write of that byte can follow an ok one. The
constants of the sleep value are log entry 3. -/
def Obligations.PrescaleWrittenOnlyBetweenSleepAndRestore : Prop :=
  ∀ (s : State) (pre post : List Event) (device : Nat) (bytes : List Byte) (o : TxOutcome), s.Inv →
    s.history = pre ++ ⟨.busWrite device 0xFE bytes, o⟩ :: post →
    ∃ (before : List Event) (old : Byte),
      pre = before ++
        [⟨.busRead Config.chipAddr 0x00 1 [old], .ok⟩,
          ⟨.busWrite Config.chipAddr 0x00 [(old &&& 0x7F#8) ||| 0x10#8], .ok⟩] ∧
      (o = .ok → ∃ o' after, post = ⟨.busWrite Config.chipAddr 0x00 [old], o'⟩ :: after)

/-- Two register images in canonical form that list the same bytes are equal data (the model's own form of the images of
rules R26 and R51; log entry 5). -/
def Obligations.CanonicalImagesAreEqual : Prop :=
  ∀ m m' : Memory, m.wf = true → m'.wf = true → (∀ a, m.byte? a = m'.byte? a) → m = m'

/-- Rules R33 and R141: every finite list of command words runs to its end, with one response a word, and H only
grows. -/
def Obligations.RunEndsWithOneResponsePerWord : Prop :=
  ∀ (ws : List Word) (s : State), s.inbox = ws.map HostInput.command →
    ∃ t, Sys2Proof.core.run ws.length s = .next t ∧ t.inbox = [] ∧
      ∃ (rs : List Response) (evs : List Event),
        t.observation.responses = s.observation.responses ++ rs ∧ rs.length = ws.length ∧
        t.observation.history = s.observation.history ++ evs

/-- Rules R114, R116 and R132: a run that starts unconfigured and holds no CFG issues no bus transaction, changes no
register of the chip and stays unconfigured. Three clauses are the model's and no rule's: that the two images do not
change, nor the image of the owned addresses that is read off them, says that the block changes nothing, for another
master's writes reach them at the block's transactions only (log entry 13); and that the draw of the channels' outputs
is the same says that no transaction took a new one, not that a channel of the chip puts out what it did before (log
entry 16). -/
def Obligations.NoBusTrafficBeforeCfg : Prop :=
  ∀ (ws : List Word) (s : State), s.inbox = ws.map HostInput.command → s.configured = false →
    (∀ w ∈ ws, ∀ f, decode w ≠ .ok (.cfg f)) →
    ∃ t, Sys2Proof.core.run ws.length s = .next t ∧
      t.history = s.history ∧ t.chip = s.chip ∧ t.written = s.written ∧ t.outputEpoch = s.outputEpoch ∧
      t.configured = false ∧ t.ownedImage = s.ownedImage

/-! ### Steps beside other masters -/

/-- Rule R51: while no transaction of the step is overlapped, the deterministic oracle's image stays, for each address,
the last byte that a write of H which completed ok sent to it; a write that faulted counts for nothing. -/
def Obligations.StepKeepsOracleAtLastOkWrite : Prop :=
  ∀ s t : State, s.OracleFollowsHistory → (∀ k < 5, (s.drawAt k).overlapped = false) → step s = .next t →
    t.OracleFollowsHistory

/-- Rules R41 and R42: where other masters reach owned registers at most (log entry 13), and sleep makes the chip lose
owned registers at most (log entry 17), a step reaches no register beside the owned ones. -/
def Obligations.StepReachesOwnedAddressesOnly : Prop :=
  ∀ s t : State, s.OwnedOnly → (∀ k < 5, ∀ c ∈ (s.drawAt k).others, ownedAddr c.1.toNat = true) →
    (∀ k < 5, ∀ c ∈ (s.drawAt k).lost, ownedAddr c.1.toNat = true) → step s = .next t → t.OwnedOnly

/-- Rules R51, R93, R95 and R126: a step whose transactions are not overlapped, and whose input is neither a reset nor
a SETD to the channel, keeps what the deterministic oracle answers for the channel's block; and where that oracle is
assumed at each transaction, and no other master reaches the chip, it keeps the block itself. -/
def Obligations.StepKeepsChannelBlock : Prop :=
  ∀ (ch : Channel) (s t : State), (∀ k < 5, (s.drawAt k).overlapped = false) →
    (∀ rest, s.inbox ≠ .reset :: rest) →
    (∀ w rest inv v, s.inbox = .command w :: rest → decode w ≠ .ok (.setd ch inv v)) → step s = .next t →
    t.oracleQuad (chaddr ch) = s.oracleQuad (chaddr ch) ∧
    ((∀ k < 5, (s.drawAt k).deterministic = true) → (∀ k < 5, (s.drawAt k).others = []) →
      t.chipQuad (chaddr ch) = s.chipQuad (chaddr ch))

/-- Rule R49: right after a command every channel puts out a value that nothing constrains, a new one for each bus
transaction of the command, a PRESCALE write among them. That it is unspecified after the other transactions too is log
entry 16. -/
def Obligations.ChannelOutputsUnspecifiedAfterTransactions : Prop :=
  ∀ (i : Instr) (s t : State), exec i s = .next t →
    ∃ evs, t.history = s.history ++ evs ∧ t.outputEpoch = s.outputEpoch + (evs.filter Event.isTransaction).length ∧
      ∀ ch, t.output ch = Config.channelOutput (s.outputEpoch + (evs.filter Event.isTransaction).length) ch

/-- Rule R126: what the chip keeps across the sleep of a CFG is not stated. With bus exclusion kept and no other
master on the chip, a CFG all of whose transactions are ok leaves in each register but MODE1 and PRESCALE the byte it
held if the deterministic oracle is assumed at the sleep write, and any byte if it is not: here the one register that
a draw makes the chip lose. What the deterministic oracle answers stays. That the loss lands at the sleep write is log
entry 17. -/
def Obligations.ChipKeepsChannelsInSleepOnlyByOracle : Prop :=
  ∀ (f : Nat) (s : State), 24 ≤ f → (∀ k < 5, (s.drawAt k).fault = false) →
    (∀ k < 5, (s.drawAt k).overlapped = false) → (∀ k < 5, (s.drawAt k).others = []) →
    ∃ t, exec (.cfg f) s = .next t ∧
      (∀ a, a ≠ 0x00 → a ≠ 0xFE → t.oracleByte a = s.oracleByte a) ∧
      ((s.drawAt 1).deterministic = true → ∀ a, a ≠ 0x00 → a ≠ 0xFE → t.chipByte a = s.chipByte a) ∧
      ∀ (a : Nat) (lostAt b : Byte), a ≠ 0x00 → a ≠ 0xFE → (s.drawAt 1).deterministic = false →
        (s.drawAt 1).lost = [(lostAt, b)] → t.chipByte a = if lostAt.toNat = a then b else s.chipByte a
end

