-- ==== Sys2Proof/Laws/Codec.lean ====
section
/-! SUPPORT. The codec's small facts: when the range check passes, that the complement stays in range, and the three
patterns the encoder can give. -/

namespace Sys2Proof.Machine

theorem dutyInRange_iff (v : Int) : dutyInRange v = true ↔ 0 ≤ v ∧ v ≤ 4095 := by simp [dutyInRange]

theorem complementIf_le {inv : Bool} {v : Nat} (h : v ≤ 4095) : complementIf inv v ≤ 4095 := by
  cases inv <;> simp [complementIf, h]

/-- The complement is its own inverse on duty values. -/
theorem complementIf_complementIf {inv : Bool} {v : Nat} (h : v ≤ 4095) : complementIf inv (complementIf inv v) = v := by
  cases inv <;> simp [complementIf]
  omega

theorem encodeDuty_eq {v : Int} (inv : Bool) (h : 0 ≤ v ∧ v ≤ 4095) :
    encodeDuty v inv = some (pairOf (complementIf inv v.toNat)) := by
  simp [encodeDuty, (dutyInRange_iff v).mpr h]

theorem encodeDuty_eq_none_iff (v : Int) (inv : Bool) : encodeDuty v inv = none ↔ v < 0 ∨ v > 4095 := by
  have h := dutyInRange_iff v
  unfold encodeDuty
  split <;> simp_all
  omega

theorem encodeDuty_range {v : Int} {inv : Bool} {p : RegPair} (h : encodeDuty v inv = some p) : 0 ≤ v ∧ v ≤ 4095 := by
  by_contra hc
  have := (encodeDuty_eq_none_iff v inv).mpr (by omega)
  simp [this] at h

theorem pairOf_zero : pairOf 0 = ⟨0, 4096⟩ := rfl
theorem pairOf_max : pairOf 4095 = ⟨4096, 0⟩ := rfl
theorem pairOf_mid {v : Nat} (h0 : v ≠ 0) (h1 : v ≠ 4095) : pairOf v = ⟨0, v⟩ := by simp [pairOf, h0, h1]

/-- A pair the encoder gives is one of the three patterns of rule R67. -/
theorem encodeDuty_pattern {v : Int} {inv : Bool} {p : RegPair} (h : encodeDuty v inv = some p) :
    p = ⟨0, 4096⟩ ∨ p = ⟨4096, 0⟩ ∨ ∃ n, 1 ≤ n ∧ n ≤ 4094 ∧ p = ⟨0, n⟩ := by
  have hv := encodeDuty_range h
  rw [encodeDuty_eq inv hv, Option.some.injEq] at h
  have hc := complementIf_le (inv := inv) (v := v.toNat) (by omega)
  generalize complementIf inv v.toNat = n at h hc
  by_cases h0 : n = 0
  · exact .inl (by rw [← h, h0, pairOf_zero])
  · by_cases h1 : n = 4095
    · exact .inr (.inl (by rw [← h, h1, pairOf_max]))
    · exact .inr (.inr ⟨n, by omega, by omega, by rw [← h, pairOf_mid h0 h1]⟩)

theorem onHalf_toNat {v : Int} {inv : Bool} {p : RegPair} (h : encodeDuty v inv = some p) : p.onHalf.toNat = p.on := by
  rcases encodeDuty_pattern h with rfl | rfl | ⟨n, -, hn, rfl⟩ <;> simp [RegPair.onHalf]

theorem offHalf_toNat {v : Int} {inv : Bool} {p : RegPair} (h : encodeDuty v inv = some p) :
    p.offHalf.toNat = p.off := by
  rcases encodeDuty_pattern h with rfl | rfl | ⟨n, -, hn, rfl⟩ <;> simp [RegPair.offHalf]
  omega

/-- A 16-bit value is its low byte and 256 times its high byte. -/
theorem half_toNat (lo hi : Byte) : (half lo hi).toNat = lo.toNat + 256 * hi.toNat := by
  unfold half
  rw [BitVec.toNat_append, Nat.shiftLeft_eq, Nat.mul_comm, ← Nat.two_pow_add_eq_or_of_lt lo.isLt]
  omega

/-- A value's two bytes put together again. -/
theorem half_le16 (x : Half) : half (x.extractLsb' 0 8) (x.extractLsb' 8 8) = x := by
  apply BitVec.eq_of_toNat_eq
  have := x.isLt
  simp only [half_toNat, BitVec.extractLsb'_toNat, Nat.shiftRight_eq_div_pow]
  omega

/-- A pair's block, byte by byte (rules R45 and R67). -/
theorem RegPair.block_eq (p : RegPair) :
    p.block = [BitVec.ofNat 8 p.on, BitVec.ofNat 8 (p.on / 256), BitVec.ofNat 8 p.off, BitVec.ofNat 8 (p.off / 256)] := by
  unfold RegPair.block le16 RegPair.onHalf RegPair.offHalf
  simp only [List.cons_append, List.nil_append, List.cons.injEq, and_true]
  refine ⟨?_, ?_, ?_, ?_⟩ <;> apply BitVec.eq_of_toNat_eq <;> simp [Nat.shiftRight_eq_div_pow] <;> omega

@[simp] theorem RegPair.block_length (p : RegPair) : p.block.length = 4 := rfl

/-- The codec's own round trip, from which rule R82 follows. -/
theorem decodeDuty_pairOf {inv : Bool} {n : Nat} (h : n ≤ 4095) :
    decodeDuty (pairOf n).on (pairOf n).off inv = some (complementIf inv n) := by
  by_cases h0 : n = 0
  · subst h0
    rfl
  · by_cases h1 : n = 4095
    · subst h1
      rfl
    · rw [pairOf_mid h0 h1]
      show decodeDuty 0 n inv = _
      unfold decodeDuty
      rw [if_neg (by simp; omega), if_neg (by simp), if_pos (by omega)]

end Sys2Proof.Machine
end

