-- ==== Sys2Proof/Laws/Decode.lean ====
section
/-! SUPPORT. The fields of a word, the two's complement forms, and a word carried as bytes. -/

namespace Sys2Proof

theorem field_lt (w : Word) (hi lo : Nat) : field w hi lo < 2 ^ (hi + 1 - lo) :=
  Nat.mod_lt _ (Nat.two_pow_pos _)

theorem field_eq_extract (w : Word) (hi lo : Nat) : field w hi lo = (w.extractLsb' lo (hi + 1 - lo)).toNat := by
  rw [BitVec.extractLsb'_toNat, Nat.shiftRight_eq_div_pow]
  rfl

/-- A field's value, bit by bit. -/
theorem field_eq_iff (w : Word) (hi lo n : Nat) :
    field w hi lo = n ↔ n < 2 ^ (hi + 1 - lo) ∧ ∀ k < hi + 1 - lo, w.getLsbD (lo + k) = n.testBit k := by
  constructor
  · rintro rfl
    refine ⟨field_lt w hi lo, fun k hk => ?_⟩
    simp [field, hk, BitVec.getLsbD, Nat.testBit_div_two_pow, Nat.add_comm]
  · rintro ⟨hn, hb⟩
    refine Nat.eq_of_testBit_eq fun k => ?_
    by_cases hk : k < hi + 1 - lo
    · simp [field, hk, ← hb k hk, BitVec.getLsbD, Nat.testBit_div_two_pow, Nat.add_comm]
    · simpa [field, hk] using
        (Nat.testBit_lt_two_pow (hn.trans_le (Nat.pow_le_pow_right (by omega) (by omega)))).symm

/-- A masked word against a pattern, bit by bit. -/
theorem and_mask_eq_iff (w m p : Word) :
    w &&& m = p ↔ ∀ k < 64, (w.getLsbD k && m.getLsbD k) = p.getLsbD k := by
  constructor
  · rintro rfl k -
    simp
  · exact fun h => BitVec.eq_of_getLsbD_eq fun k hk => by simpa using h k hk

theorem twos16_lt (v : Int) : twos16 v < 65536 := by
  unfold twos16
  omega

/-- An encodable value comes back from its 16 bits. -/
theorem sext16_twos16 {v : Int} (h : valueEncodable v = true) : sext16 (twos16 v) = v := by
  simp only [valueEncodable, Bool.and_eq_true, decide_eq_true_eq] at h
  unfold sext16 twos16
  split <;> omega

theorem twos16_sext16 {n : Nat} (h : n < 65536) : twos16 (sext16 n) = n := by
  unfold sext16 twos16
  split <;> omega

theorem valueEncodable_sext16 {n : Nat} (h : n < 65536) : valueEncodable (sext16 n) = true := by
  unfold sext16
  split <;> simp only [valueEncodable, Bool.and_eq_true, decide_eq_true_eq] <;> omega

/-- An operation's opcode names it, and no other value does (rule R62). -/
theorem opOf_eq_some_iff (n : Nat) (op : Op) : opOf n = some op ↔ n = op.code := by
  unfold opOf
  cases op <;> simp only [Op.code] <;> (repeat' split) <;> simp_all

/-- The fields of a record's word are the record's (rule R61). -/
theorem Cmd.word_toNat {c : Cmd} (hch : c.ch < 16) (ha : c.a < 65536) (hb : c.b < 65536) :
    c.word.toNat = c.op.code + 2 ^ 4 * c.ch + 2 ^ 8 * c.inv.toNat + 2 ^ 16 * c.a + 2 ^ 32 * c.b := by
  have ho : c.op.code < 16 := by cases c.op <;> decide
  have hi : c.inv.toNat ≤ 1 := Bool.toNat_le c.inv
  unfold Cmd.word
  rw [BitVec.toNat_ofNat, Nat.mod_eq_of_lt]
  omega

/-- A word's fields are a record's, and its reserved fields are zero (rule R61). -/
structure HasFields (w : Word) (c : Cmd) : Prop where
  op : field w 3 0 = c.op.code
  ch : field w 7 4 = c.ch
  inv : field w 8 8 = c.inv.toNat
  rsv0 : field w 15 9 = 0
  a : field w 31 16 = c.a
  b : field w 47 32 = c.b
  rsv1 : field w 63 48 = 0

theorem Cmd.word_hasFields {c : Cmd} (hch : c.ch < 16) (ha : c.a < 65536) (hb : c.b < 65536) : HasFields c.word c := by
  have ho : c.op.code < 16 := by cases c.op <;> decide
  have hi : c.inv.toNat ≤ 1 := Bool.toNat_le c.inv
  have hw := Cmd.word_toNat hch ha hb
  constructor <;> simp only [field] <;> generalize c.word.toNat = n at * <;> omega

/-- The operands of a command that fits are in the ranges of the fields (rule R69). -/
theorem Instr.cmd_fits {i : Instr} (h : i.wellFormed = true) : i.cmd.ch < 16 ∧ i.cmd.a < 65536 ∧ i.cmd.b < 65536 := by
  cases i <;> simp [Instr.wellFormed, halfEncodable, Instr.cmd, twos16_lt] at * <;> omega

theorem Instr.encode_hasFields {i : Instr} (h : i.wellFormed = true) : HasFields (encode i) i.cmd :=
  Cmd.word_hasFields (Instr.cmd_fits h).1 (Instr.cmd_fits h).2.1 (Instr.cmd_fits h).2.2

theorem wordBytes_eq (w : Word) :
    wordBytes w = [BitVec.ofNat 8 (w.toNat / 256 ^ 0), BitVec.ofNat 8 (w.toNat / 256 ^ 1),
      BitVec.ofNat 8 (w.toNat / 256 ^ 2), BitVec.ofNat 8 (w.toNat / 256 ^ 3), BitVec.ofNat 8 (w.toNat / 256 ^ 4),
      BitVec.ofNat 8 (w.toNat / 256 ^ 5), BitVec.ofNat 8 (w.toNat / 256 ^ 6), BitVec.ofNat 8 (w.toNat / 256 ^ 7)] := rfl

/-- A word is what its eight bytes carry. -/
theorem bytesWord_bytes (n : Nat) (h : n < 2 ^ 64) :
    bytesWord (BitVec.ofNat 8 (n / 256 ^ 0)) (BitVec.ofNat 8 (n / 256 ^ 1)) (BitVec.ofNat 8 (n / 256 ^ 2))
      (BitVec.ofNat 8 (n / 256 ^ 3)) (BitVec.ofNat 8 (n / 256 ^ 4)) (BitVec.ofNat 8 (n / 256 ^ 5))
      (BitVec.ofNat 8 (n / 256 ^ 6)) (BitVec.ofNat 8 (n / 256 ^ 7)) = BitVec.ofNat 64 n := by
  unfold bytesWord
  congr 1
  simp only [BitVec.toNat_ofNat]
  omega

end Sys2Proof
end

