-- ==== Sys2Proof/Laws/Flags.lean ====
section
/-! SUPPORT. The packed response word as a number, and what the range and state checks say. -/

namespace Sys2Proof.Machine

/-- The packed response is the sum of its fields (rule R66). -/
theorem Response.pack_toNat (r : Response) :
    r.pack.toNat = r.status.code.toNat + 2 ^ 16 * r.r0.toNat + 2 ^ 32 * r.r1.toNat := by
  have h := r.status.code.isLt
  have h0 := r.r0.isLt
  have h1 := r.r1.isLt
  unfold Response.pack
  rw [BitVec.toNat_ofNat, Nat.mod_eq_of_lt]
  omega

@[simp] theorem State.unconfigured_eq (s : State) : s.unconfigured = !s.configured := by simp [State.unconfigured]

/-- CFG rejects exactly the frequencies 0 to 23 (rule R111). -/
theorem frequencyRejected_iff (f : Nat) : frequencyRejected f = true ↔ f ≤ 23 := by
  unfold frequencyRejected prescale
  simp only [Config.oscHz, Config.ticks, Config.prescaleMax, Bool.or_eq_true, decide_eq_true_eq, gt_iff_lt]
  by_cases h : f = 0
  · simp [h]
  · rw [Nat.lt_iff_add_one_le, Nat.le_div_iff_mul_le (by omega)]
    omega

theorem prescale_eq (f : Nat) : prescale f = (50000000 + 4096 * f) / (8192 * f) := by simp [prescale]

/-- A frequency CFG does not reject has a prescale value of one byte (rules R14 and R95). -/
theorem prescale_le {f : Nat} (h : 24 ≤ f) : prescale f ≤ 255 := by
  have := mt (frequencyRejected_iff f).mp (by omega)
  simp [frequencyRejected] at this
  omega

end Sys2Proof.Machine
end

