-- ==== Sys2Proof/Laws/State.lean ====
section
/-! SUPPORT. For each update of the state, what every field of the result is. -/

namespace Sys2Proof.Machine

section enter
variable (s : State) (p : Phase)

@[simp] theorem State.enter_configured : (s.enter p).configured = s.configured := rfl
@[simp] theorem State.enter_phase : (s.enter p).phase = p := rfl
@[simp] theorem State.enter_chip : (s.enter p).chip = s.chip := rfl
@[simp] theorem State.enter_written : (s.enter p).written = s.written := rfl
@[simp] theorem State.enter_history : (s.enter p).history = s.history := rfl
@[simp] theorem State.enter_responses : (s.enter p).responses = s.responses := rfl
@[simp] theorem State.enter_inbox : (s.enter p).inbox = s.inbox := rfl
@[simp] theorem State.enter_draws : (s.enter p).draws = s.draws := rfl
@[simp] theorem State.enter_drawCount : (s.enter p).drawCount = s.drawCount := rfl
@[simp] theorem State.enter_chipEpoch : (s.enter p).chipEpoch = s.chipEpoch := rfl
@[simp] theorem State.enter_outputEpoch : (s.enter p).outputEpoch = s.outputEpoch := rfl

end enter

section record
variable (s : State) (k : EventKind) (o : TxOutcome)

@[simp] theorem State.record_configured : (s.record k o).configured = s.configured := rfl
@[simp] theorem State.record_phase : (s.record k o).phase = s.phase := rfl
@[simp] theorem State.record_chip : (s.record k o).chip = s.chip := rfl
@[simp] theorem State.record_written : (s.record k o).written = s.written := rfl
@[simp] theorem State.record_history : (s.record k o).history = s.history ++ [⟨k, o⟩] := rfl
@[simp] theorem State.record_responses : (s.record k o).responses = s.responses := rfl
@[simp] theorem State.record_inbox : (s.record k o).inbox = s.inbox := rfl
@[simp] theorem State.record_draws : (s.record k o).draws = s.draws := rfl
@[simp] theorem State.record_drawCount : (s.record k o).drawCount = s.drawCount := rfl
@[simp] theorem State.record_chipEpoch : (s.record k o).chipEpoch = s.chipEpoch := rfl
@[simp] theorem State.record_outputEpoch : (s.record k o).outputEpoch = s.outputEpoch := rfl

end record

section setImages
variable (s : State) (c w : Memory)

@[simp] theorem State.setImages_configured : (s.setImages c w).configured = s.configured := rfl
@[simp] theorem State.setImages_phase : (s.setImages c w).phase = s.phase := rfl
@[simp] theorem State.setImages_chip : (s.setImages c w).chip = c := rfl
@[simp] theorem State.setImages_written : (s.setImages c w).written = w := rfl
@[simp] theorem State.setImages_history : (s.setImages c w).history = s.history := rfl
@[simp] theorem State.setImages_responses : (s.setImages c w).responses = s.responses := rfl
@[simp] theorem State.setImages_inbox : (s.setImages c w).inbox = s.inbox := rfl
@[simp] theorem State.setImages_draws : (s.setImages c w).draws = s.draws := rfl
@[simp] theorem State.setImages_drawCount : (s.setImages c w).drawCount = s.drawCount := rfl
@[simp] theorem State.setImages_chipEpoch : (s.setImages c w).chipEpoch = s.chipEpoch := rfl
@[simp] theorem State.setImages_outputEpoch : (s.setImages c w).outputEpoch = s.outputEpoch := rfl

end setImages

section setConfigured
variable (s : State) (b : Bool)

@[simp] theorem State.setConfigured_configured : (s.setConfigured b).configured = b := rfl
@[simp] theorem State.setConfigured_phase : (s.setConfigured b).phase = s.phase := rfl
@[simp] theorem State.setConfigured_chip : (s.setConfigured b).chip = s.chip := rfl
@[simp] theorem State.setConfigured_written : (s.setConfigured b).written = s.written := rfl
@[simp] theorem State.setConfigured_history : (s.setConfigured b).history = s.history := rfl
@[simp] theorem State.setConfigured_responses : (s.setConfigured b).responses = s.responses := rfl
@[simp] theorem State.setConfigured_inbox : (s.setConfigured b).inbox = s.inbox := rfl
@[simp] theorem State.setConfigured_draws : (s.setConfigured b).draws = s.draws := rfl
@[simp] theorem State.setConfigured_drawCount : (s.setConfigured b).drawCount = s.drawCount := rfl
@[simp] theorem State.setConfigured_chipEpoch : (s.setConfigured b).chipEpoch = s.chipEpoch := rfl
@[simp] theorem State.setConfigured_outputEpoch : (s.setConfigured b).outputEpoch = s.outputEpoch := rfl

end setConfigured

section respond
variable (s : State) (e : Status) (r0 r1 : Half)

@[simp] theorem State.respond_configured : (s.respond e r0 r1).configured = s.configured := rfl
@[simp] theorem State.respond_phase : (s.respond e r0 r1).phase = .idle := rfl
@[simp] theorem State.respond_chip : (s.respond e r0 r1).chip = s.chip := rfl
@[simp] theorem State.respond_written : (s.respond e r0 r1).written = s.written := rfl
@[simp] theorem State.respond_history : (s.respond e r0 r1).history = s.history := rfl
@[simp] theorem State.respond_responses : (s.respond e r0 r1).responses = s.responses ++ [⟨e, r0, r1⟩] := rfl
@[simp] theorem State.respond_inbox : (s.respond e r0 r1).inbox = s.inbox := rfl
@[simp] theorem State.respond_draws : (s.respond e r0 r1).draws = s.draws := rfl
@[simp] theorem State.respond_drawCount : (s.respond e r0 r1).drawCount = s.drawCount := rfl
@[simp] theorem State.respond_chipEpoch : (s.respond e r0 r1).chipEpoch = s.chipEpoch := rfl
@[simp] theorem State.respond_outputEpoch : (s.respond e r0 r1).outputEpoch = s.outputEpoch := rfl

end respond

section wait
variable (s : State) (t : Nat)

@[simp] theorem State.wait_configured : (s.wait t).configured = s.configured := rfl
@[simp] theorem State.wait_phase : (s.wait t).phase = s.phase := rfl
@[simp] theorem State.wait_chip : (s.wait t).chip = s.chip := rfl
@[simp] theorem State.wait_written : (s.wait t).written = s.written := rfl
@[simp] theorem State.wait_history : (s.wait t).history = s.history ++ [⟨.wait t, .ok⟩] := rfl
@[simp] theorem State.wait_responses : (s.wait t).responses = s.responses := rfl
@[simp] theorem State.wait_inbox : (s.wait t).inbox = s.inbox := rfl
@[simp] theorem State.wait_draws : (s.wait t).draws = s.draws := rfl
@[simp] theorem State.wait_drawCount : (s.wait t).drawCount = s.drawCount := rfl
@[simp] theorem State.wait_chipEpoch : (s.wait t).chipEpoch = s.chipEpoch := rfl
@[simp] theorem State.wait_outputEpoch : (s.wait t).outputEpoch = s.outputEpoch := rfl

end wait

section advance
variable (s : State)

@[simp] theorem State.advance_configured : s.advance.configured = s.configured := rfl
@[simp] theorem State.advance_phase : s.advance.phase = s.phase := rfl
@[simp] theorem State.advance_chip : s.advance.chip = s.chip := rfl
@[simp] theorem State.advance_written : s.advance.written = s.written := rfl
@[simp] theorem State.advance_history : s.advance.history = s.history := rfl
@[simp] theorem State.advance_responses : s.advance.responses = s.responses := rfl
@[simp] theorem State.advance_inbox : s.advance.inbox = s.inbox := rfl
@[simp] theorem State.advance_draws : s.advance.draws = s.draws.tail := rfl
@[simp] theorem State.advance_drawCount : s.advance.drawCount = if s.draws.isEmpty then s.drawCount + 1 else s.drawCount := rfl
@[simp] theorem State.advance_chipEpoch : s.advance.chipEpoch = s.chipEpoch := rfl
@[simp] theorem State.advance_outputEpoch : s.advance.outputEpoch = s.outputEpoch + 1 := rfl

end advance

@[simp] theorem State.complete_eq (s : State) (r0 r1 : Half) : s.complete r0 r1 = s.respond .ok r0 r1 := rfl
@[simp] theorem State.raiseError_eq (s : State) (e : Status) (r0 r1 : Half) :
    s.raiseError e r0 r1 = s.respond e r0 r1 := rfl

end Sys2Proof.Machine
end

