-- ==== Sys2Proof/Laws/Memory.lean ====
section
/-! SUPPORT. The register image: what a write leaves to be read, that every write keeps the canonical form, and that
writes inside the owned addresses list no other address. -/

namespace Sys2Proof.Machine

@[simp] theorem Memory.byte?_nil (a : Nat) : Memory.byte? [] a = none := rfl

theorem Memory.byte?_set_self (m : Memory) (a : Nat) (b : Byte) : (m.set a b).byte? a = some b := by
  induction m with
  | nil => simp [Memory.set, Memory.byte?]
  | cons c rest ih =>
    unfold Memory.set
    split
    · simp [Memory.byte?]
    · split
      · simp [Memory.byte?]
      · rename_i h
        simp [Memory.byte?, h, ih]

theorem Memory.byte?_set_ne (m : Memory) {a x : Nat} (b : Byte) (h : x ≠ a) : (m.set a b).byte? x = m.byte? x := by
  induction m with
  | nil => simp [Memory.set, Memory.byte?, h]
  | cons c rest ih =>
    unfold Memory.set
    split
    · simp [Memory.byte?, h]
    · split
      · rename_i hk
        subst hk
        simp [Memory.byte?, h]
      · simp [Memory.byte?, ih]

/-- A byte outside a block keeps what it held. -/
theorem Memory.byte?_setBlock_outside (bs : List Byte) (m : Memory) (a x : Nat) (h : x < a ∨ a + bs.length ≤ x) :
    (m.setBlock a bs).byte? x = m.byte? x := by
  induction bs generalizing m a with
  | nil => rfl
  | cons b bs ih =>
    simp only [List.length_cons] at h
    rw [Memory.setBlock, ih _ _ (by omega), Memory.byte?_set_ne _ _ (by omega)]

/-- A byte inside a block is the one written there. -/
theorem Memory.byte?_setBlock_inside (bs : List Byte) (m : Memory) (a k : Nat) (h : k < bs.length) :
    (m.setBlock a bs).byte? (a + k) = some bs[k] := by
  induction bs generalizing m a k with
  | nil => simp at h
  | cons b bs ih =>
    rw [Memory.setBlock]
    cases k with
    | zero =>
      rw [Memory.byte?_setBlock_outside _ _ _ _ (by omega), Nat.add_zero, Memory.byte?_set_self]
      rfl
    | succ k =>
      have := ih (m.set a b) (a + 1) k (by simpa using h)
      rw [show a + (k + 1) = a + 1 + k by omega, this]
      rfl

theorem Memory.risingFrom_mono {m : Memory} {lo lo' : Nat} (h : m.risingFrom lo = true) (hl : lo' ≤ lo) :
    m.risingFrom lo' = true := by
  cases m with
  | nil => rfl
  | cons c rest =>
    simp only [Memory.risingFrom, Bool.and_eq_true, decide_eq_true_eq] at h ⊢
    exact ⟨⟨by omega, h.1.2⟩, h.2⟩

theorem Memory.risingFrom_set {m : Memory} {lo a : Nat} (b : Byte) (h : m.risingFrom lo = true) (hl : lo ≤ a)
    (ha : a < 256) : (m.set a b).risingFrom lo = true := by
  induction m generalizing lo with
  | nil => simp [Memory.set, Memory.risingFrom, hl, ha]
  | cons c rest ih =>
    simp only [Memory.risingFrom, Bool.and_eq_true, decide_eq_true_eq] at h
    unfold Memory.set
    split
    · rename_i hk
      simp only [Memory.risingFrom, Bool.and_eq_true, decide_eq_true_eq]
      exact ⟨⟨hl, ha⟩, ⟨by omega, h.1.2⟩, h.2⟩
    · split
      · rename_i hk
        subst hk
        simp [Memory.risingFrom, h]
      · simp only [Memory.risingFrom, Bool.and_eq_true, decide_eq_true_eq]
        exact ⟨h.1, ih h.2 (by omega)⟩

/-- A write of one byte in the 8-bit space keeps the canonical form. -/
theorem Memory.wf_set {m : Memory} {a : Nat} (b : Byte) (h : m.wf = true) (ha : a < 256) : (m.set a b).wf = true :=
  Memory.risingFrom_set b h (Nat.zero_le a) ha

/-- A block write in the 8-bit space keeps the canonical form. -/
theorem Memory.wf_setBlock (bs : List Byte) {m : Memory} {a : Nat} (h : m.wf = true) (ha : a + bs.length ≤ 256) :
    (m.setBlock a bs).wf = true := by
  induction bs generalizing m a with
  | nil => exact h
  | cons b bs ih =>
    simp only [List.length_cons] at ha
    exact ih (Memory.wf_set b h (by omega)) (by omega)

/-- Reset's image is canonical. -/
theorem Memory.wf_reset : State.reset.chip.wf = true := rfl

theorem Memory.forall_set {P : Nat → Prop} {m : Memory} {a : Nat} (b : Byte) (h : ∀ c ∈ m, P c.1) (ha : P a) :
    ∀ c ∈ m.set a b, P c.1 := by
  induction m with
  | nil => exact List.forall_mem_singleton.mpr ha
  | cons c rest ih =>
    have ⟨hc, hr⟩ := List.forall_mem_cons.mp h
    unfold Memory.set
    split
    · exact List.forall_mem_cons.mpr ⟨ha, h⟩
    · split
      · exact List.forall_mem_cons.mpr ⟨ha, hr⟩
      · exact List.forall_mem_cons.mpr ⟨hc, ih hr⟩

/-- Whatever holds of every listed address and of every address of a block holds of every address listed after the
block is written. -/
theorem Memory.forall_setBlock {P : Nat → Prop} (bs : List Byte) {m : Memory} {a : Nat} (h : ∀ c ∈ m, P c.1)
    (ha : ∀ k < bs.length, P (a + k)) : ∀ c ∈ m.setBlock a bs, P c.1 := by
  induction bs generalizing m a with
  | nil => exact h
  | cons b bs ih =>
    refine ih (Memory.forall_set b h (by simpa using ha 0 (by simp))) fun k hk => ?_
    have := ha (k + 1) (by simpa using hk)
    rwa [show a + 1 + k = a + (k + 1) by omega]

/-! ### Single bytes written one after another -/

/-- A byte that none of the writes names keeps what it held. -/
theorem Memory.byte?_setAll_avoided (l : List (Byte × Byte)) (m : Memory) {x : Nat} (h : ∀ c ∈ l, c.1.toNat ≠ x) :
    (m.setAll l).byte? x = m.byte? x := by
  induction l generalizing m with
  | nil => rfl
  | cons c l ih =>
    have ⟨hc, hl⟩ := List.forall_mem_cons.mp h
    rw [Memory.setAll, ih _ hl, Memory.byte?_set_ne _ _ hc.symm]

theorem Memory.wf_setAll (l : List (Byte × Byte)) {m : Memory} (h : m.wf = true) : (m.setAll l).wf = true := by
  induction l generalizing m with
  | nil => exact h
  | cons c l ih => exact ih (Memory.wf_set c.2 h c.1.isLt)

theorem Memory.forall_setAll {P : Nat → Prop} (l : List (Byte × Byte)) {m : Memory} (h : ∀ c ∈ m, P c.1)
    (hl : ∀ c ∈ l, P c.1.toNat) : ∀ c ∈ m.setAll l, P c.1 := by
  induction l generalizing m with
  | nil => exact h
  | cons c l ih =>
    have ⟨hc, hr⟩ := List.forall_mem_cons.mp hl
    exact ih (Memory.forall_set c.2 h hc) hr

end Sys2Proof.Machine
end

