-- ==== Sys2Proof/Laws/Ops.lean ====
section
/-! SUPPORT. What each bus primitive can do, said once: the outcome, the event, the image, the free values used up, and
everything it leaves alone. -/

namespace Sys2Proof.Machine

@[simp] theorem txFaults_eq (d : BusDraw) : txFaults d = d.fault := by simp [txFaults]

/-! ### The free values -/

theorem State.drawAt_congr {s t : State} (hd : t.draws = s.draws) (hc : t.drawCount = s.drawCount) (k : Nat) :
    t.drawAt k = s.drawAt k := by
  simp [State.drawAt, hd, hc]

/-- The free values move up by one when a transaction's are used up. -/
theorem State.drawAt_advance (s : State) (k : Nat) : s.advance.drawAt k = s.drawAt (k + 1) := by
  unfold State.drawAt
  cases h : s.draws with
  | nil => simp [h, Nat.add_assoc, Nat.add_comm 1]
  | cons d ds => simp [h]

section drawAt
variable (s : State) (k : Nat)

@[simp] theorem State.enter_drawAt (p : Phase) : (s.enter p).drawAt k = s.drawAt k := rfl
@[simp] theorem State.wait_drawAt (t : Nat) : (s.wait t).drawAt k = s.drawAt k := rfl
@[simp] theorem State.setConfigured_drawAt (b : Bool) : (s.setConfigured b).drawAt k = s.drawAt k := rfl
@[simp] theorem State.respond_drawAt (e : Status) (r0 r1 : Half) : (s.respond e r0 r1).drawAt k = s.drawAt k := rfl
@[simp] theorem State.afterRead_drawAt (addr n : Nat) : (s.afterRead addr n).drawAt k = s.drawAt (k + 1) :=
  s.drawAt_advance k
@[simp] theorem State.afterWrite_drawAt (addr : Nat) (bytes : List Byte) :
    (s.afterWrite addr bytes).drawAt k = s.drawAt (k + 1) :=
  s.drawAt_advance k

theorem State.draw_eq : s.draw = s.drawAt 0 := rfl
@[simp] theorem State.enter_draw (p : Phase) : (s.enter p).draw = s.draw := rfl
@[simp] theorem State.enter_answerBytes (p : Phase) (d : BusDraw) (addr : Nat) :
    (s.enter p).answerBytes d addr = s.answerBytes d addr := rfl
@[simp] theorem State.enter_chipAfterRead (p : Phase) (addr n : Nat) :
    (s.enter p).chipAfterRead addr n = s.chipAfterRead addr n := rfl
@[simp] theorem State.enter_writtenAfterRead (p : Phase) (addr n : Nat) :
    (s.enter p).writtenAfterRead addr n = s.writtenAfterRead addr n := rfl

end drawAt

/-! ### A transaction's outcome -/

theorem State.txOutcome_eq (s : State) : s.txOutcome = if (s.drawAt 0).fault then .fault else .ok := by
  simp [State.txOutcome, State.draw]

theorem State.txOutcome_ok {s : State} (h : (s.drawAt 0).fault = false) : s.txOutcome = .ok := by
  simp [State.txOutcome_eq, h]

theorem State.txOutcome_fault {s : State} (h : (s.drawAt 0).fault = true) : s.txOutcome = .fault := by
  simp [State.txOutcome_eq, h]

/-! ### Reads -/

section afterRead
variable (s : State) (addr n : Nat)

@[simp] theorem State.afterRead_configured : (s.afterRead addr n).configured = s.configured := rfl
@[simp] theorem State.afterRead_phase : (s.afterRead addr n).phase = s.phase := rfl
@[simp] theorem State.afterRead_responses : (s.afterRead addr n).responses = s.responses := rfl
@[simp] theorem State.afterRead_inbox : (s.afterRead addr n).inbox = s.inbox := rfl
@[simp] theorem State.afterRead_chipEpoch : (s.afterRead addr n).chipEpoch = s.chipEpoch := rfl
@[simp] theorem State.afterRead_draws : (s.afterRead addr n).draws = s.draws.tail := rfl
@[simp] theorem State.afterRead_drawCount :
    (s.afterRead addr n).drawCount = if s.draws.isEmpty then s.drawCount + 1 else s.drawCount := rfl
@[simp] theorem State.afterRead_outputEpoch : (s.afterRead addr n).outputEpoch = s.outputEpoch + 1 := rfl
@[simp] theorem State.afterRead_chip : (s.afterRead addr n).chip = s.chipAfterRead addr n := rfl
@[simp] theorem State.afterRead_written : (s.afterRead addr n).written = s.writtenAfterRead addr n := rfl
@[simp] theorem State.afterRead_history :
    (s.afterRead addr n).history = s.history ++ [⟨.busRead Config.chipAddr addr n (s.readBytes addr n), s.txOutcome⟩] := rfl

end afterRead

theorem State.readReturns_ok {s : State} (addr : Nat) (h : (s.drawAt 0).fault = false) :
    s.readReturns addr = some (s.answerBytes s.draw addr) := by
  simp [State.readReturns, State.draw, h]

theorem State.readReturns_fault {s : State} (addr : Nat) (h : (s.drawAt 0).fault = true) :
    s.readReturns addr = none := by
  simp [State.readReturns, State.draw, h]

theorem State.readBytes_ok {s : State} (addr n : Nat) (h : (s.drawAt 0).fault = false) :
    s.readBytes addr n = (s.answerBytes s.draw addr).toList.take n := by
  simp [State.readBytes, State.readReturns_ok addr h]

theorem State.readBytes_fault {s : State} (addr n : Nat) (h : (s.drawAt 0).fault = true) : s.readBytes addr n = [] := by
  simp [State.readBytes, State.readReturns_fault addr h]

/-- The bytes a read returns, by the kind of oracle (rules R51 and R135). -/
theorem State.answerBytes_eq (s : State) (d : BusDraw) (addr : Nat) :
    s.answerBytes d addr = if d.deterministic = true ∧ d.overlapped = false then s.oracleQuad addr else d.bytes := by
  simp [State.answerBytes]

theorem State.othersAvoid_mono {s : State} {m n a : Nat} (h : s.OthersAvoid n a) (hm : m ≤ n) : s.OthersAvoid m a :=
  fun k hk => h k (by omega)

/-- What other masters avoid from a state on, they avoid from a later one on. -/
theorem State.othersAvoid_later {s t : State} {n m a : Nat} (h : s.OthersAvoid (n + m) a)
    (ht : ∀ k, t.drawAt k = s.drawAt (k + n)) : t.OthersAvoid m a := fun k hk => by
  rw [ht]
  exact h (k + n) (by omega)

theorem State.othersAvoid_of_none {s : State} {n : Nat} (h : ∀ k < n, (s.drawAt k).others = []) (a : Nat) :
    s.OthersAvoid n a := fun k hk c hc => by
  rw [h k hk] at hc
  cases hc

/-- Other masters change no register they do not reach. -/
theorem State.chipOfOthers_avoided {s : State} {x : Nat} (h : s.OthersAvoid 1 x) :
    s.chipOfOthers.byte? x = s.chip.byte? x :=
  Memory.byte?_setAll_avoided _ _ (h 0 (by omega))

/-- Where other masters reach nothing, they change nothing. -/
theorem State.chipOfOthers_none {s : State} (h : (s.drawAt 0).others = []) : s.chipOfOthers = s.chip := by
  simp [State.chipOfOthers, State.draw, h, Memory.setAll]

theorem State.oracleOverlapped_outside {s : State} {addr n x : Nat} (h : x < addr ∨ addr + n ≤ x)
    (ho : s.OthersAvoid 1 x) : (s.oracleOverlapped addr n).byte? x = s.written.byte? x := by
  unfold State.oracleOverlapped
  rw [Memory.byte?_setBlock_outside _ _ _ _ (by rw [List.length_take]; omega)]
  exact Memory.byte?_setAll_avoided _ _ (ho 0 (by omega))

/-- A read leaves both images alone where bus exclusion is kept and no other master reaches the chip (rules R50 and
R135). -/
theorem State.chipAfterRead_eq {s : State} (addr n : Nat) (h : (s.drawAt 0).overlapped = false)
    (ho : (s.drawAt 0).others = []) : s.chipAfterRead addr n = s.chip := by
  simp [State.chipAfterRead, State.draw, h, State.chipOfOthers_none ho]

theorem State.writtenAfterRead_eq {s : State} (addr n : Nat) (h : (s.drawAt 0).overlapped = false) :
    s.writtenAfterRead addr n = s.written := by
  simp [State.writtenAfterRead, State.draw, h]

/-- A read changes no register outside its range that no other master reaches. -/
theorem State.chipAfterRead_outside {s : State} {addr n x : Nat}
    (h : s.draw.overlapped = true → x < addr ∨ addr + n ≤ x) (ho : s.OthersAvoid 1 x) :
    (s.chipAfterRead addr n).byte? x = s.chip.byte? x := by
  rw [← State.chipOfOthers_avoided ho]
  unfold State.chipAfterRead
  split
  · rename_i hv
    refine Memory.byte?_setBlock_outside _ _ _ _ ?_
    have := h hv
    rw [List.length_take]
    omega
  · rfl

theorem State.writtenAfterRead_outside {s : State} {addr n x : Nat}
    (h : s.draw.overlapped = true → x < addr ∨ addr + n ≤ x) (ho : s.OthersAvoid 1 x) :
    (s.writtenAfterRead addr n).byte? x = s.written.byte? x := by
  unfold State.writtenAfterRead
  split
  · rename_i hv
    exact State.oracleOverlapped_outside (h hv) ho
  · rfl

/-! ### Writes -/

section afterWrite
variable (s : State) (addr : Nat) (bytes : List Byte)

@[simp] theorem State.afterWrite_configured : (s.afterWrite addr bytes).configured = s.configured := rfl
@[simp] theorem State.afterWrite_phase : (s.afterWrite addr bytes).phase = s.phase := rfl
@[simp] theorem State.afterWrite_responses : (s.afterWrite addr bytes).responses = s.responses := rfl
@[simp] theorem State.afterWrite_inbox : (s.afterWrite addr bytes).inbox = s.inbox := rfl
@[simp] theorem State.afterWrite_chipEpoch : (s.afterWrite addr bytes).chipEpoch = s.chipEpoch := rfl
@[simp] theorem State.afterWrite_draws : (s.afterWrite addr bytes).draws = s.draws.tail := rfl
@[simp] theorem State.afterWrite_drawCount :
    (s.afterWrite addr bytes).drawCount = if s.draws.isEmpty then s.drawCount + 1 else s.drawCount := rfl
@[simp] theorem State.afterWrite_outputEpoch : (s.afterWrite addr bytes).outputEpoch = s.outputEpoch + 1 := rfl
@[simp] theorem State.afterWrite_chip : (s.afterWrite addr bytes).chip = s.chipAfterWrite addr bytes := rfl
@[simp] theorem State.afterWrite_written : (s.afterWrite addr bytes).written = s.writtenAfterWrite addr bytes := rfl
@[simp] theorem State.afterWrite_history :
    (s.afterWrite addr bytes).history = s.history ++ [⟨.busWrite Config.chipAddr addr bytes, s.txOutcome⟩] := rfl

end afterWrite

theorem landedBytes_length {d : BusDraw} {bytes : List Byte} (h : bytes.length ≤ 4) :
    (landedBytes d bytes).length = bytes.length := by
  unfold landedBytes
  split
  · rw [List.length_take]
    simp [Quad.toList]
    omega
  · rfl

/-- A write lands as sent where it does not fault and bus exclusion is kept (rules R52 and R135). -/
theorem landedBytes_ok {d : BusDraw} (bytes : List Byte) (hf : d.fault = false) (ho : d.overlapped = false) :
    landedBytes d bytes = bytes := by
  simp [landedBytes, hf, ho]

/-- A faulted write leaves any bytes in its range (rule R52). -/
theorem landedBytes_fault {d : BusDraw} (bytes : List Byte) (hf : d.fault = true) :
    landedBytes d bytes = d.left.toList.take bytes.length := by
  simp [landedBytes, hf]

/-- A write changes no register outside its range that no other master reaches. -/
theorem State.chipAfterWrite_outside {s : State} {addr x : Nat} {bytes : List Byte} (hb : bytes.length ≤ 4)
    (h : x < addr ∨ addr + bytes.length ≤ x) (ho : s.OthersAvoid 1 x) :
    (s.chipAfterWrite addr bytes).byte? x = s.chip.byte? x := by
  rw [← State.chipOfOthers_avoided ho]
  refine Memory.byte?_setBlock_outside _ _ _ _ ?_
  rwa [landedBytes_length hb]

theorem State.writtenAfterWrite_outside {s : State} {addr x : Nat} {bytes : List Byte}
    (h : x < addr ∨ addr + bytes.length ≤ x) (ho : s.OthersAvoid 1 x) :
    (s.writtenAfterWrite addr bytes).byte? x = s.written.byte? x := by
  unfold State.writtenAfterWrite
  split
  · exact State.oracleOverlapped_outside h ho
  · split
    · rfl
    · exact Memory.byte?_setBlock_outside _ _ _ _ h

/-- Without overlap, what the deterministic oracle answers after a write: the bytes sent where it is ok, else as before
(rule R51). -/
theorem State.writtenAfterWrite_eq {s : State} (addr : Nat) (bytes : List Byte)
    (h : (s.drawAt 0).overlapped = false) :
    s.writtenAfterWrite addr bytes =
      if (s.drawAt 0).fault then s.written else s.written.setBlock addr bytes := by
  simp [State.writtenAfterWrite, State.draw, h]

/-- The bytes a write sends are in its range afterwards, where it does not fault and bus exclusion is kept. -/
theorem State.chipAfterWrite_ok {s : State} (addr : Nat) (bytes : List Byte) (hf : (s.drawAt 0).fault = false)
    (h : (s.drawAt 0).overlapped = false) : s.chipAfterWrite addr bytes = s.chipOfOthers.setBlock addr bytes := by
  unfold State.chipAfterWrite
  rw [landedBytes_ok (d := s.draw) bytes hf h]

@[simp] theorem State.enter_chipAfterWrite (s : State) (p : Phase) (addr : Nat) (bytes : List Byte) :
    (s.enter p).chipAfterWrite addr bytes = s.chipAfterWrite addr bytes := rfl
@[simp] theorem State.enter_writtenAfterWrite (s : State) (p : Phase) (addr : Nat) (bytes : List Byte) :
    (s.enter p).writtenAfterWrite addr bytes = s.writtenAfterWrite addr bytes := rfl
@[simp] theorem State.wait_chipAfterWrite (s : State) (t addr : Nat) (bytes : List Byte) :
    (s.wait t).chipAfterWrite addr bytes = s.chipAfterWrite addr bytes := rfl
@[simp] theorem State.wait_writtenAfterWrite (s : State) (t addr : Nat) (bytes : List Byte) :
    (s.wait t).writtenAfterWrite addr bytes = s.writtenAfterWrite addr bytes := rfl

/-! ### The chip's sleep -/

section throughSleep
variable (s : State) (k : Nat)

@[simp] theorem State.throughSleep_configured : s.throughSleep.configured = s.configured := rfl
@[simp] theorem State.throughSleep_phase : s.throughSleep.phase = s.phase := rfl
@[simp] theorem State.throughSleep_chip : s.throughSleep.chip = s.chipThroughSleep := rfl
@[simp] theorem State.throughSleep_written : s.throughSleep.written = s.written := rfl
@[simp] theorem State.throughSleep_history : s.throughSleep.history = s.history := rfl
@[simp] theorem State.throughSleep_responses : s.throughSleep.responses = s.responses := rfl
@[simp] theorem State.throughSleep_inbox : s.throughSleep.inbox = s.inbox := rfl
@[simp] theorem State.throughSleep_draws : s.throughSleep.draws = s.draws := rfl
@[simp] theorem State.throughSleep_drawCount : s.throughSleep.drawCount = s.drawCount := rfl
@[simp] theorem State.throughSleep_chipEpoch : s.throughSleep.chipEpoch = s.chipEpoch := rfl
@[simp] theorem State.throughSleep_outputEpoch : s.throughSleep.outputEpoch = s.outputEpoch := rfl
@[simp] theorem State.throughSleep_drawAt : s.throughSleep.drawAt k = s.drawAt k := rfl
@[simp] theorem State.throughSleep_draw : s.throughSleep.draw = s.draw := rfl
@[simp] theorem State.throughSleep_writtenAfterWrite (addr : Nat) (bytes : List Byte) :
    s.throughSleep.writtenAfterWrite addr bytes = s.writtenAfterWrite addr bytes := rfl

end throughSleep

theorem State.sleepKeeps_congr {s t : State} {k j : Nat} (h : t.drawAt k = s.drawAt j) (a : Nat) :
    t.SleepKeeps k a ↔ s.SleepKeeps j a := by
  simp [State.SleepKeeps, h]

/-- Under the deterministic oracle the chip keeps its registers across sleep (rule R126). -/
theorem State.chipThroughSleep_deterministic {s : State} (h : (s.drawAt 0).deterministic = true) :
    s.chipThroughSleep = s.chip := by
  simp [State.chipThroughSleep, State.draw, h]

/-- Under the general oracle a register may hold any byte after sleep (rule R126). -/
theorem State.chipThroughSleep_general {s : State} (h : (s.drawAt 0).deterministic = false) :
    s.chipThroughSleep = s.chip.setAll (s.drawAt 0).lost := by
  simp [State.chipThroughSleep, State.draw, h]

/-- A register that the chip does not lose is as it was. -/
theorem State.chipThroughSleep_kept {s : State} {x : Nat} (h : s.SleepKeeps 0 x) :
    s.chipThroughSleep.byte? x = s.chip.byte? x := by
  unfold State.chipThroughSleep
  split
  · rfl
  · rename_i hd
    exact Memory.byte?_setAll_avoided _ _ (h.resolve_left hd)

theorem State.chipThroughSleep_wf {s : State} (h : s.chip.wf = true) : s.chipThroughSleep.wf = true := by
  unfold State.chipThroughSleep
  split
  · exact h
  · exact Memory.wf_setAll _ h

/-- Sleep leaves both images with owned addresses only, where the chip loses owned registers only. -/
theorem State.throughSleep_ownedOnly {s : State} (hs : s.OwnedOnly)
    (hl : ∀ c ∈ (s.drawAt 0).lost, ownedAddr c.1.toNat = true) : s.throughSleep.OwnedOnly := by
  refine ⟨?_, hs.oracle⟩
  rw [State.throughSleep_chip, State.chipThroughSleep]
  split
  · exact hs.image
  · exact Memory.forall_setAll (P := fun a => ownedAddr a = true) _ hs.image hl

/-! ### Both images keep their form -/

theorem State.chipAfterRead_wf {s : State} {addr n : Nat} (h : s.chip.wf = true) (ha : addr + n ≤ 256) :
    (s.chipAfterRead addr n).wf = true := by
  unfold State.chipAfterRead
  split
  · exact Memory.wf_setBlock _ (Memory.wf_setAll _ h) (by rw [List.length_take]; omega)
  · exact Memory.wf_setAll _ h

theorem State.oracleOverlapped_wf {s : State} {addr n : Nat} (h : s.written.wf = true) (ha : addr + n ≤ 256) :
    (s.oracleOverlapped addr n).wf = true :=
  Memory.wf_setBlock _ (Memory.wf_setAll _ h) (by rw [List.length_take]; omega)

theorem State.writtenAfterRead_wf {s : State} {addr n : Nat} (h : s.written.wf = true) (ha : addr + n ≤ 256) :
    (s.writtenAfterRead addr n).wf = true := by
  unfold State.writtenAfterRead
  split
  · exact State.oracleOverlapped_wf h ha
  · exact h

theorem State.chipAfterWrite_wf {s : State} {addr : Nat} {bytes : List Byte} (h : s.chip.wf = true)
    (hb : bytes.length ≤ 4) (ha : addr + bytes.length ≤ 256) : (s.chipAfterWrite addr bytes).wf = true :=
  Memory.wf_setBlock _ (Memory.wf_setAll _ h) (by rwa [landedBytes_length hb])

theorem State.writtenAfterWrite_wf {s : State} {addr : Nat} {bytes : List Byte} (h : s.written.wf = true)
    (ha : addr + bytes.length ≤ 256) : (s.writtenAfterWrite addr bytes).wf = true := by
  unfold State.writtenAfterWrite
  split
  · exact State.oracleOverlapped_wf h ha
  · split
    · exact h
    · exact Memory.wf_setBlock _ h ha

/-! ### Reading the image back -/

theorem State.chipByte_congr {s t : State} {a : Nat} (he : t.chipEpoch = s.chipEpoch)
    (h : t.chip.byte? a = s.chip.byte? a) : t.chipByte a = s.chipByte a := by
  simp [State.chipByte, he, h]

theorem State.chipByte_of_byte? {s : State} {a : Nat} {b : Byte} (h : s.chip.byte? a = some b) : s.chipByte a = b := by
  simp [State.chipByte, h]

theorem State.oracleByte_congr {s t : State} {a : Nat} (he : t.chipEpoch = s.chipEpoch)
    (h : t.written.byte? a = s.written.byte? a) : t.oracleByte a = s.oracleByte a := by
  simp [State.oracleByte, he, h]

theorem State.oracleByte_of_byte? {s : State} {a : Nat} {b : Byte} (h : s.written.byte? a = some b) :
    s.oracleByte a = b := by
  simp [State.oracleByte, h]

/-- The four bytes of a block just written are the ones read back. -/
theorem State.chipQuad_of_setBlock {s : State} {m : Memory} {a : Nat} (q : Quad) (h : s.chip = m.setBlock a q.toList) :
    s.chipQuad a = q := by
  have k := Memory.byte?_setBlock_inside q.toList m a
  have k0 := k 0 (by simp [Quad.toList])
  have k1 := k 1 (by simp [Quad.toList])
  have k2 := k 2 (by simp [Quad.toList])
  have k3 := k 3 (by simp [Quad.toList])
  simp only [Nat.add_zero] at k0
  simp only [State.chipQuad, State.chipByte, h, k0, k1, k2, k3]
  rfl

/-- The four bytes of a block just written are the ones the deterministic oracle answers. -/
theorem State.oracleQuad_of_setBlock {s : State} {m : Memory} {a : Nat} (q : Quad)
    (h : s.written = m.setBlock a q.toList) : s.oracleQuad a = q :=
  State.chipQuad_of_setBlock (s := { s with chip := s.written }) q h

theorem oracleKept_of {s t : State} {a : Nat} (he : t.chipEpoch = s.chipEpoch)
    (hw : t.written.byte? a = s.written.byte? a) : OracleKept s t a := ⟨hw, State.oracleByte_congr he hw⟩

theorem registerKept_of {s t : State} {a : Nat} (he : t.chipEpoch = s.chipEpoch)
    (hc : t.chip.byte? a = s.chip.byte? a) (hw : t.written.byte? a = s.written.byte? a) : RegisterKept s t a :=
  ⟨oracleKept_of he hw, hc, State.chipByte_congr he hc⟩

/-! ### Events -/

section events
variable (device addr n t a : Nat) (bytes : List Byte) (o : TxOutcome)

@[simp] theorem Event.isTransaction_busWrite : Event.isTransaction ⟨.busWrite device addr bytes, o⟩ = true := rfl
@[simp] theorem Event.isTransaction_busRead : Event.isTransaction ⟨.busRead device addr n bytes, o⟩ = true := rfl
@[simp] theorem Event.isTransaction_wait : Event.isTransaction ⟨.wait t, o⟩ = false := rfl
@[simp] theorem Event.okWrite?_ok :
    Event.okWrite? ⟨.busWrite device addr bytes, .ok⟩ a = if addr ≤ a then bytes[a - addr]? else none := rfl
@[simp] theorem Event.okWrite?_fault : Event.okWrite? ⟨.busWrite device addr bytes, .fault⟩ a = none := rfl
@[simp] theorem Event.okWrite?_busRead : Event.okWrite? ⟨.busRead device addr n bytes, o⟩ a = none := by
  cases o <;> rfl
@[simp] theorem Event.okWrite?_wait : Event.okWrite? ⟨.wait t, o⟩ a = none := by
  cases o <;> rfl

end events

/-! ### The deterministic oracle and H -/

theorem lastOkWrite_append (h h' : List Event) (a : Nat) :
    lastOkWrite (h ++ h') a = (lastOkWrite h' a).or (lastOkWrite h a) := by
  have key : ∀ last : Option Byte,
      h'.foldl (fun last e => (e.okWrite? a).or last) last = (lastOkWrite h' a).or last := by
    unfold lastOkWrite
    induction h' with
    | nil => simp
    | cons e rest ih =>
      intro last
      rw [List.foldl_cons, List.foldl_cons, ih, ih ((e.okWrite? a).or none)]
      cases e.okWrite? a <;> simp
  unfold lastOkWrite
  rw [List.foldl_append, key]
  rfl

/-- A read that is not overlapped changes neither the oracle's image nor what H says of it. -/
theorem State.afterRead_oracleFollows {s : State} (addr n : Nat) (hs : s.OracleFollowsHistory)
    (h : (s.drawAt 0).overlapped = false) : (s.afterRead addr n).OracleFollowsHistory := fun a => by
  simp only [State.afterRead_written, State.afterRead_history, lastOkWrite_append, State.writtenAfterRead_eq _ _ h]
  simpa [lastOkWrite] using hs a

/-- A write that is not overlapped changes the oracle's image as H says: by the bytes sent where it is ok, and not at all
where it faults. -/
theorem State.afterWrite_oracleFollows {s : State} (addr : Nat) (bytes : List Byte) (hs : s.OracleFollowsHistory)
    (h : (s.drawAt 0).overlapped = false) : (s.afterWrite addr bytes).OracleFollowsHistory := fun a => by
  simp only [State.afterWrite_written, State.afterWrite_history, lastOkWrite_append,
    State.writtenAfterWrite_eq _ _ h, State.txOutcome_eq]
  have hs := hs a
  cases (s.drawAt 0).fault with
  | true => simpa [lastOkWrite] using hs
  | false =>
    by_cases hin : addr ≤ a ∧ a < addr + bytes.length
    · have hb := Memory.byte?_setBlock_inside bytes s.written addr (a - addr) (by omega)
      rw [Nat.add_sub_cancel' hin.1] at hb
      simp [lastOkWrite, hin.1, hb, List.getElem?_eq_getElem (show a - addr < bytes.length by omega)]
    · have hn : (if addr ≤ a then bytes[a - addr]? else none) = none := by
        split
        · exact List.getElem?_eq_none (by omega)
        · rfl
      simpa [lastOkWrite, hn, Memory.byte?_setBlock_outside bytes s.written addr a (by omega)] using hs

/-! ### Which addresses the images list -/

/-- A read's effect on both images lists no address but those listed, those of its range, and those other masters
reached. -/
theorem State.afterRead_ownedOnly {s : State} {addr n : Nat} (hs : s.OwnedOnly)
    (ho : ∀ c ∈ (s.drawAt 0).others, ownedAddr c.1.toNat = true) (ha : ∀ k < n, ownedAddr (addr + k) = true) :
    (s.afterRead addr n).OwnedOnly := by
  have range : ∀ k < (s.draw.left.toList.take n).length, ownedAddr (addr + k) = true := fun k hk =>
    ha k (by rw [List.length_take] at hk; omega)
  have hc := Memory.forall_setAll (P := fun a => ownedAddr a = true) s.draw.others hs.image ho
  have hw := Memory.forall_setAll (P := fun a => ownedAddr a = true) s.draw.others hs.oracle ho
  constructor
  · rw [State.afterRead_chip, State.chipAfterRead]
    split
    · exact Memory.forall_setBlock (P := fun a => ownedAddr a = true) _ hc range
    · exact hc
  · rw [State.afterRead_written, State.writtenAfterRead]
    split
    · exact Memory.forall_setBlock (P := fun a => ownedAddr a = true) _ hw range
    · exact hs.oracle

/-- The same of a write. -/
theorem State.afterWrite_ownedOnly {s : State} {addr : Nat} {bytes : List Byte} (hs : s.OwnedOnly)
    (ho : ∀ c ∈ (s.drawAt 0).others, ownedAddr c.1.toNat = true) (hb : bytes.length ≤ 4)
    (ha : ∀ k < bytes.length, ownedAddr (addr + k) = true) : (s.afterWrite addr bytes).OwnedOnly := by
  have range : ∀ k < (s.draw.left.toList.take bytes.length).length, ownedAddr (addr + k) = true := fun k hk =>
    ha k (by rw [List.length_take] at hk; omega)
  have hc := Memory.forall_setAll (P := fun a => ownedAddr a = true) s.draw.others hs.image ho
  have hw := Memory.forall_setAll (P := fun a => ownedAddr a = true) s.draw.others hs.oracle ho
  constructor
  · exact Memory.forall_setBlock (P := fun a => ownedAddr a = true) _ hc (by rwa [landedBytes_length hb])
  · rw [State.afterWrite_written, State.writtenAfterWrite]
    split
    · exact Memory.forall_setBlock (P := fun a => ownedAddr a = true) _ hw range
    · split
      · exact hs.oracle
      · exact Memory.forall_setBlock (P := fun a => ownedAddr a = true) _ hs.oracle ha

end Sys2Proof.Machine
end

