-- ==== Sys2Proof/Laws/Exec.lean ====
section
/-! SUPPORT. What each command can do, said once: the state it ends in, for every way its checks and its bus
transactions can go. -/

namespace Sys2Proof.Machine

theorem execEnc_eq (inv : Bool) (value : Int) (s : State) :
    exec (.enc inv value) s = .next (match encodeDuty value inv with
      | none => s.respond .rangeError 0 0
      | some p => s.respond .ok p.onHalf p.offHalf) := rfl

theorem execDec_eq (inv : Bool) (on off : Nat) (s : State) :
    exec (.dec inv on off) s = .next (match decodeDuty on off inv with
      | none => s.respond .decodeError (BitVec.ofNat 16 on) (BitVec.ofNat 16 off)
      | some v => s.respond .ok (BitVec.ofNat 16 v) 0) := rfl

/-- SETD's five ends (rule R93). -/
theorem execSetd_eq (ch : Channel) (inv : Bool) (value : Int) (s : State) :
    exec (.setd ch inv value) s = .next (match encodeDuty value inv with
      | none => s.respond .rangeError 0 0
      | some p =>
        if s.configured then
          if (s.drawAt 0).fault then (s.afterWrite (chaddr ch) p.block).respond .busFault 0 0
          else (s.afterWrite (chaddr ch) p.block).respond .ok p.onHalf p.offHalf
        else s.respond .unconfiguredAccess 0 0) := by
  simp only [exec, execSetd, State.writeBlock, State.memWrite, State.txOutcome_eq, State.unconfigured_eq,
    State.raiseError_eq, State.complete_eq]
  cases encodeDuty value inv with
  | none => rfl
  | some p => cases s.configured <;> cases (s.drawAt 0).fault <;> rfl

/-- GETD's four ends (rule R94). -/
theorem execGetd_eq (ch : Channel) (inv : Bool) (s : State) :
    exec (.getd ch inv) s = .next (
      if s.configured then
        if (s.drawAt 0).fault then (s.afterRead (chaddr ch) 4).respond .busFault 0 0
        else match decodeDuty (onOf (s.answerBytes s.draw (chaddr ch))).toNat
            (offOf (s.answerBytes s.draw (chaddr ch))).toNat inv with
          | none => (s.afterRead (chaddr ch) 4).respond .decodeError (onOf (s.answerBytes s.draw (chaddr ch)))
              (offOf (s.answerBytes s.draw (chaddr ch)))
          | some v => (s.afterRead (chaddr ch) 4).respond .ok (BitVec.ofNat 16 v) 0
      else s.respond .unconfiguredAccess 0 0) := by
  simp only [exec, execGetd, State.readBlock, State.memRead, State.unconfigured_eq, State.raiseError_eq,
    State.complete_eq]
  cases hc : s.configured
  · rfl
  · cases hf : (s.drawAt 0).fault
    · rw [State.readReturns_ok _ hf]
      rfl
    · rw [State.readReturns_fault _ hf]
      rfl

/-- One write of CFG: it goes on, or CONFIGURED is cleared and the command ends with BusFault (rule R95). -/
theorem cfgWrite_eq (p : Phase) (addr : Nat) (b : Byte) (s : State) (goOn : State → State) :
    cfgWrite p addr b s goOn =
      if (s.drawAt 0).fault then (((s.enter p).afterWrite addr [b]).setConfigured false).respond .busFault 0 0
      else goOn ((s.enter p).afterWrite addr [b]) := by
  by_cases h : (s.drawAt 0).fault = true <;>
    simp [cfgWrite, State.writeRegister, State.memWrite, State.txOutcome_eq, h]

/-- The state of CFG once its MODE1 read is done. -/
@[irreducible] def cfgRead (s : State) : State := ((s.enter .check).enter .readMode).afterRead Config.mode1Addr 1

/-- The MODE1 byte CFG's read returned. -/
def cfgOld (s : State) : Byte := (s.answerBytes s.draw Config.mode1Addr).b0

/-- CFG's ends but for those of the sequence (rule R95). -/
theorem execCfg_eq (f : Nat) (s : State) :
    exec (.cfg f) s = .next (
      if f ≤ 23 then (s.enter .check).respond .rangeError 0 0
      else if (s.drawAt 0).fault then (cfgRead s).respond .busFault 0 0
      else cfgSequence f (cfgOld s) (cfgRead s)) := by
  simp only [exec, execCfg, State.readRegister, State.memRead, State.raiseError_eq]
  by_cases hr : f ≤ 23
  · simp [(frequencyRejected_iff f).mpr hr, hr]
  · have hr' : frequencyRejected f = false := by
      rw [← Bool.not_eq_true, frequencyRejected_iff]
      exact hr
    rw [if_neg (by simp [hr']), if_neg hr]
    cases hf : (s.drawAt 0).fault
    · rw [State.readReturns_ok _ (by simpa using hf)]
      unfold cfgRead
      rfl
    · rw [State.readReturns_fault _ (by simpa using hf)]
      unfold cfgRead
      rfl

/-- CFG's state after its sleep write. -/
@[irreducible] def cfgSlept (old : Byte) (s : State) : State :=
  (s.throughSleep.enter .sleep).afterWrite Config.mode1Addr [sleepValue old]

/-- CFG's state after its PRESCALE write. -/
@[irreducible] def cfgPrescaled (f : Nat) (s : State) : State :=
  (s.enter .prescale).afterWrite Config.prescaleAddr [prescaleByte f]

/-- CFG's state after its restore write. -/
@[irreducible] def cfgRestored (old : Byte) (s : State) : State :=
  (s.enter .restore).afterWrite Config.mode1Addr [restoreValue old]

/-- CFG's state after its settle wait and its auto-increment write. -/
@[irreducible] def cfgEnabled (old : Byte) (s : State) : State :=
  (((s.enter .settle).wait Config.tSettle).enter .aiEnable).afterWrite Config.mode1Addr [aiValue old]

/-- The end of a CFG one of whose writes faulted (rule R95). -/
@[irreducible] def cfgFaulted (s : State) : State := (s.setConfigured false).respond .busFault 0 0

/-- The five ends of CFG's sequence (rule R95). -/
theorem cfgSequence_eq (f : Nat) (old : Byte) (s : State) :
    cfgSequence f old s =
      if (s.drawAt 0).fault then cfgFaulted (cfgSlept old s)
      else if (s.drawAt 1).fault then cfgFaulted (cfgPrescaled f (cfgSlept old s))
      else if (s.drawAt 2).fault then cfgFaulted (cfgRestored old (cfgPrescaled f (cfgSlept old s)))
      else if (s.drawAt 3).fault then
        cfgFaulted (cfgEnabled old (cfgRestored old (cfgPrescaled f (cfgSlept old s))))
      else ((cfgEnabled old (cfgRestored old (cfgPrescaled f (cfgSlept old s)))).setConfigured true).respond .ok
        (BitVec.ofNat 16 (prescale f)) (old.setWidth 16) := by
  simp only [cfgSequence, cfgWrite_eq, State.afterWrite_drawAt, State.enter_drawAt, State.wait_drawAt,
    State.throughSleep_drawAt, cfgSlept, cfgPrescaled, cfgRestored, cfgEnabled, cfgFaulted]
  rfl

/-- Every end a command can have, with the condition it has it under: `Ran i s t` says that `i` run in `s` ends in `t`. -/
inductive Ran : Instr → State → State → Prop
  | encOut {inv v s} (h : encodeDuty v inv = none) : Ran (.enc inv v) s (s.respond .rangeError 0 0)
  | enc {inv v s} {p : RegPair} (h : encodeDuty v inv = some p) : Ran (.enc inv v) s (s.respond .ok p.onHalf p.offHalf)
  | decOther {inv on off s} (h : decodeDuty on off inv = none) :
    Ran (.dec inv on off) s (s.respond .decodeError (BitVec.ofNat 16 on) (BitVec.ofNat 16 off))
  | dec {inv on off s} {v : Nat} (h : decodeDuty on off inv = some v) :
    Ran (.dec inv on off) s (s.respond .ok (BitVec.ofNat 16 v) 0)
  | setdOut {ch inv v s} (h : encodeDuty v inv = none) : Ran (.setd ch inv v) s (s.respond .rangeError 0 0)
  | setdUnconfigured {ch inv v s} {p : RegPair} (h : encodeDuty v inv = some p) (hc : s.configured = false) :
    Ran (.setd ch inv v) s (s.respond .unconfiguredAccess 0 0)
  | setdFault {ch inv v s} {p : RegPair} (h : encodeDuty v inv = some p) (hc : s.configured = true)
    (h0 : (s.drawAt 0).fault = true) :
    Ran (.setd ch inv v) s ((s.afterWrite (chaddr ch) p.block).respond .busFault 0 0)
  | setd {ch inv v s} {p : RegPair} (h : encodeDuty v inv = some p) (hc : s.configured = true)
    (h0 : (s.drawAt 0).fault = false) :
    Ran (.setd ch inv v) s ((s.afterWrite (chaddr ch) p.block).respond .ok p.onHalf p.offHalf)
  | getdUnconfigured {ch inv s} (hc : s.configured = false) :
    Ran (.getd ch inv) s (s.respond .unconfiguredAccess 0 0)
  | getdFault {ch inv s} (hc : s.configured = true) (h0 : (s.drawAt 0).fault = true) :
    Ran (.getd ch inv) s ((s.afterRead (chaddr ch) 4).respond .busFault 0 0)
  | getdOther {ch inv s} {q : Quad} (hc : s.configured = true) (h0 : (s.drawAt 0).fault = false)
    (hq : s.answerBytes s.draw (chaddr ch) = q) (h : decodeDuty (onOf q).toNat (offOf q).toNat inv = none) :
    Ran (.getd ch inv) s ((s.afterRead (chaddr ch) 4).respond .decodeError (onOf q) (offOf q))
  | getd {ch inv s} {q : Quad} {v : Nat} (hc : s.configured = true) (h0 : (s.drawAt 0).fault = false)
    (hq : s.answerBytes s.draw (chaddr ch) = q) (h : decodeDuty (onOf q).toNat (offOf q).toNat inv = some v) :
    Ran (.getd ch inv) s ((s.afterRead (chaddr ch) 4).respond .ok (BitVec.ofNat 16 v) 0)
  | cfgOut {f s} (h : f ≤ 23) : Ran (.cfg f) s ((s.enter .check).respond .rangeError 0 0)
  | cfgReadFault {f s} (h : ¬f ≤ 23) (h0 : (s.drawAt 0).fault = true) :
    Ran (.cfg f) s ((cfgRead s).respond .busFault 0 0)
  | cfgSleepFault {f s} (h : ¬f ≤ 23) (h0 : (s.drawAt 0).fault = false) (h1 : (s.drawAt 1).fault = true) :
    Ran (.cfg f) s (cfgFaulted (cfgSlept (cfgOld s) (cfgRead s)))
  | cfgPrescaleFault {f s} (h : ¬f ≤ 23) (h0 : (s.drawAt 0).fault = false) (h1 : (s.drawAt 1).fault = false)
    (h2 : (s.drawAt 2).fault = true) :
    Ran (.cfg f) s (cfgFaulted (cfgPrescaled f (cfgSlept (cfgOld s) (cfgRead s))))
  | cfgRestoreFault {f s} (h : ¬f ≤ 23) (h0 : (s.drawAt 0).fault = false) (h1 : (s.drawAt 1).fault = false)
    (h2 : (s.drawAt 2).fault = false) (h3 : (s.drawAt 3).fault = true) :
    Ran (.cfg f) s (cfgFaulted (cfgRestored (cfgOld s) (cfgPrescaled f (cfgSlept (cfgOld s) (cfgRead s)))))
  | cfgEnableFault {f s} (h : ¬f ≤ 23) (h0 : (s.drawAt 0).fault = false) (h1 : (s.drawAt 1).fault = false)
    (h2 : (s.drawAt 2).fault = false) (h3 : (s.drawAt 3).fault = false) (h4 : (s.drawAt 4).fault = true) :
    Ran (.cfg f) s (cfgFaulted (cfgEnabled (cfgOld s)
      (cfgRestored (cfgOld s) (cfgPrescaled f (cfgSlept (cfgOld s) (cfgRead s))))))
  | cfg {f s} (h : ¬f ≤ 23) (h0 : (s.drawAt 0).fault = false) (h1 : (s.drawAt 1).fault = false)
    (h2 : (s.drawAt 2).fault = false) (h3 : (s.drawAt 3).fault = false) (h4 : (s.drawAt 4).fault = false) :
    Ran (.cfg f) s (((cfgEnabled (cfgOld s)
      (cfgRestored (cfgOld s) (cfgPrescaled f (cfgSlept (cfgOld s) (cfgRead s))))).setConfigured true).respond .ok
        (BitVec.ofNat 16 (prescale f)) ((cfgOld s).setWidth 16))

/-! ### What each stage of CFG changes and what it leaves alone -/

section stages
variable (s : State) (old : Byte) (f k : Nat)

@[simp] theorem cfgRead_drawAt : (cfgRead s).drawAt k = s.drawAt (k + 1) := by simp [cfgRead]
@[simp] theorem cfgSlept_drawAt : (cfgSlept old s).drawAt k = s.drawAt (k + 1) := by simp [cfgSlept]
@[simp] theorem cfgPrescaled_drawAt : (cfgPrescaled f s).drawAt k = s.drawAt (k + 1) := by simp [cfgPrescaled]
@[simp] theorem cfgRestored_drawAt : (cfgRestored old s).drawAt k = s.drawAt (k + 1) := by simp [cfgRestored]
@[simp] theorem cfgEnabled_drawAt : (cfgEnabled old s).drawAt k = s.drawAt (k + 1) := by simp [cfgEnabled]
@[simp] theorem cfgRead_responses : (cfgRead s).responses = s.responses := by
  unfold cfgRead
  rfl
@[simp] theorem cfgSlept_responses : (cfgSlept old s).responses = s.responses := by
  unfold cfgSlept
  rfl
@[simp] theorem cfgPrescaled_responses : (cfgPrescaled f s).responses = s.responses := by
  unfold cfgPrescaled
  rfl
@[simp] theorem cfgRestored_responses : (cfgRestored old s).responses = s.responses := by
  unfold cfgRestored
  rfl
@[simp] theorem cfgEnabled_responses : (cfgEnabled old s).responses = s.responses := by
  unfold cfgEnabled
  rfl
@[simp] theorem cfgRead_inbox : (cfgRead s).inbox = s.inbox := by
  unfold cfgRead
  rfl
@[simp] theorem cfgSlept_inbox : (cfgSlept old s).inbox = s.inbox := by
  unfold cfgSlept
  rfl
@[simp] theorem cfgPrescaled_inbox : (cfgPrescaled f s).inbox = s.inbox := by
  unfold cfgPrescaled
  rfl
@[simp] theorem cfgRestored_inbox : (cfgRestored old s).inbox = s.inbox := by
  unfold cfgRestored
  rfl
@[simp] theorem cfgEnabled_inbox : (cfgEnabled old s).inbox = s.inbox := by
  unfold cfgEnabled
  rfl
@[simp] theorem cfgRead_chipEpoch : (cfgRead s).chipEpoch = s.chipEpoch := by
  unfold cfgRead
  rfl
@[simp] theorem cfgSlept_chipEpoch : (cfgSlept old s).chipEpoch = s.chipEpoch := by
  unfold cfgSlept
  rfl
@[simp] theorem cfgPrescaled_chipEpoch : (cfgPrescaled f s).chipEpoch = s.chipEpoch := by
  unfold cfgPrescaled
  rfl
@[simp] theorem cfgRestored_chipEpoch : (cfgRestored old s).chipEpoch = s.chipEpoch := by
  unfold cfgRestored
  rfl
@[simp] theorem cfgEnabled_chipEpoch : (cfgEnabled old s).chipEpoch = s.chipEpoch := by
  unfold cfgEnabled
  rfl
@[simp] theorem cfgRead_configured : (cfgRead s).configured = s.configured := by
  unfold cfgRead
  rfl
@[simp] theorem cfgSlept_configured : (cfgSlept old s).configured = s.configured := by
  unfold cfgSlept
  rfl
@[simp] theorem cfgPrescaled_configured : (cfgPrescaled f s).configured = s.configured := by
  unfold cfgPrescaled
  rfl
@[simp] theorem cfgRestored_configured : (cfgRestored old s).configured = s.configured := by
  unfold cfgRestored
  rfl
@[simp] theorem cfgEnabled_configured : (cfgEnabled old s).configured = s.configured := by
  unfold cfgEnabled
  rfl

@[simp] theorem cfgRead_history :
    (cfgRead s).history = s.history ++
      [⟨.busRead Config.chipAddr 0 1 (if (s.drawAt 0).fault then [] else [cfgOld s]),
        if (s.drawAt 0).fault then .fault else .ok⟩] := by
  cases h : (s.drawAt 0).fault
  · simp [cfgRead, State.txOutcome_eq, h, State.readBytes_ok _ _ (s := (s.enter .check).enter .readMode) h, cfgOld,
      Quad.toList]
  · simp [cfgRead, State.txOutcome_eq, h, State.readBytes_fault _ _ (s := (s.enter .check).enter .readMode) h]
@[simp] theorem cfgSlept_history :
    (cfgSlept old s).history = s.history ++
      [⟨.busWrite Config.chipAddr 0 [sleepValue old], if (s.drawAt 0).fault then .fault else .ok⟩] := by
  cases h : (s.drawAt 0).fault <;> simp [cfgSlept, State.txOutcome_eq, h]
@[simp] theorem cfgPrescaled_history :
    (cfgPrescaled f s).history = s.history ++
      [⟨.busWrite Config.chipAddr 0xFE [prescaleByte f], if (s.drawAt 0).fault then .fault else .ok⟩] := by
  cases h : (s.drawAt 0).fault <;> simp [cfgPrescaled, State.txOutcome_eq, h]
@[simp] theorem cfgRestored_history :
    (cfgRestored old s).history = s.history ++
      [⟨.busWrite Config.chipAddr 0 [restoreValue old], if (s.drawAt 0).fault then .fault else .ok⟩] := by
  cases h : (s.drawAt 0).fault <;> simp [cfgRestored, State.txOutcome_eq, h]
@[simp] theorem cfgEnabled_history :
    (cfgEnabled old s).history = s.history ++
      [⟨.wait Config.tSettle, .ok⟩,
        ⟨.busWrite Config.chipAddr 0 [aiValue old], if (s.drawAt 0).fault then .fault else .ok⟩] := by
  cases h : (s.drawAt 0).fault <;> simp [cfgEnabled, State.txOutcome_eq, h]

@[simp] theorem cfgFaulted_history : (cfgFaulted s).history = s.history := by
  unfold cfgFaulted
  rfl
@[simp] theorem cfgFaulted_configured : (cfgFaulted s).configured = false := by
  unfold cfgFaulted
  rfl
@[simp] theorem cfgFaulted_chip : (cfgFaulted s).chip = s.chip := by
  unfold cfgFaulted
  rfl
@[simp] theorem cfgFaulted_phase : (cfgFaulted s).phase = .idle := by
  unfold cfgFaulted
  rfl
@[simp] theorem cfgFaulted_inbox : (cfgFaulted s).inbox = s.inbox := by
  unfold cfgFaulted
  rfl
@[simp] theorem cfgFaulted_chipEpoch : (cfgFaulted s).chipEpoch = s.chipEpoch := by
  unfold cfgFaulted
  rfl
@[simp] theorem cfgFaulted_responses : (cfgFaulted s).responses = s.responses ++ [⟨.busFault, 0, 0⟩] := by
  unfold cfgFaulted
  rfl
@[simp] theorem cfgFaulted_drawAt : (cfgFaulted s).drawAt k = s.drawAt k := by
  unfold cfgFaulted
  rfl

@[simp] theorem cfgRead_chip : (cfgRead s).chip = s.chipAfterRead 0 1 := by
  unfold cfgRead
  rfl
@[simp] theorem cfgRead_written : (cfgRead s).written = s.writtenAfterRead 0 1 := by
  unfold cfgRead
  rfl
@[simp] theorem cfgSlept_chip : (cfgSlept old s).chip = s.throughSleep.chipAfterWrite 0 [sleepValue old] := by
  unfold cfgSlept
  rfl
@[simp] theorem cfgSlept_written : (cfgSlept old s).written = s.writtenAfterWrite 0 [sleepValue old] := by
  unfold cfgSlept
  rfl
@[simp] theorem cfgPrescaled_chip : (cfgPrescaled f s).chip = s.chipAfterWrite 0xFE [prescaleByte f] := by
  unfold cfgPrescaled
  rfl
@[simp] theorem cfgPrescaled_written : (cfgPrescaled f s).written = s.writtenAfterWrite 0xFE [prescaleByte f] := by
  unfold cfgPrescaled
  rfl
@[simp] theorem cfgRestored_chip : (cfgRestored old s).chip = s.chipAfterWrite 0 [restoreValue old] := by
  unfold cfgRestored
  rfl
@[simp] theorem cfgRestored_written : (cfgRestored old s).written = s.writtenAfterWrite 0 [restoreValue old] := by
  unfold cfgRestored
  rfl
@[simp] theorem cfgEnabled_chip : (cfgEnabled old s).chip = s.chipAfterWrite 0 [aiValue old] := by
  unfold cfgEnabled
  rfl
@[simp] theorem cfgEnabled_written : (cfgEnabled old s).written = s.writtenAfterWrite 0 [aiValue old] := by
  unfold cfgEnabled
  rfl
@[simp] theorem cfgRead_outputEpoch : (cfgRead s).outputEpoch = s.outputEpoch + 1 := by
  unfold cfgRead
  rfl
@[simp] theorem cfgSlept_outputEpoch : (cfgSlept old s).outputEpoch = s.outputEpoch + 1 := by
  unfold cfgSlept
  rfl
@[simp] theorem cfgPrescaled_outputEpoch : (cfgPrescaled f s).outputEpoch = s.outputEpoch + 1 := by
  unfold cfgPrescaled
  rfl
@[simp] theorem cfgRestored_outputEpoch : (cfgRestored old s).outputEpoch = s.outputEpoch + 1 := by
  unfold cfgRestored
  rfl
@[simp] theorem cfgEnabled_outputEpoch : (cfgEnabled old s).outputEpoch = s.outputEpoch + 1 := by
  unfold cfgEnabled
  rfl
@[simp] theorem cfgFaulted_written : (cfgFaulted s).written = s.written := by
  unfold cfgFaulted
  rfl
@[simp] theorem cfgFaulted_outputEpoch : (cfgFaulted s).outputEpoch = s.outputEpoch := by
  unfold cfgFaulted
  rfl

end stages

/-- What `Ran` says, `exec` does. -/
theorem Ran.exec {i : Instr} {s t : State} (h : Ran i s t) : exec i s = .next t := by
  cases h with
  | encOut h => simp [execEnc_eq, h]
  | enc h => simp [execEnc_eq, h]
  | decOther h => simp [execDec_eq, h]
  | dec h => simp [execDec_eq, h]
  | setdOut h => simp [execSetd_eq, h]
  | setdUnconfigured h hc => simp [execSetd_eq, h, hc]
  | setdFault h hc h0 => simp [execSetd_eq, h, hc, h0]
  | setd h hc h0 => simp [execSetd_eq, h, hc, h0]
  | getdUnconfigured hc => simp [execGetd_eq, hc]
  | getdFault hc h0 => simp [execGetd_eq, hc, h0]
  | getdOther hc h0 hq h => simp [execGetd_eq, hc, h0, hq, h]
  | getd hc h0 hq h => simp [execGetd_eq, hc, h0, hq, h]
  | cfgOut h => simp [execCfg_eq, h]
  | cfgReadFault h h0 => simp [execCfg_eq, h, h0]
  | cfgSleepFault h h0 h1 => simp [execCfg_eq, cfgSequence_eq, h, h0, h1]
  | cfgPrescaleFault h h0 h1 h2 => simp [execCfg_eq, cfgSequence_eq, h, h0, h1, h2]
  | cfgRestoreFault h h0 h1 h2 h3 => simp [execCfg_eq, cfgSequence_eq, h, h0, h1, h2, h3]
  | cfgEnableFault h h0 h1 h2 h3 h4 => simp [execCfg_eq, cfgSequence_eq, h, h0, h1, h2, h3, h4]
  | cfg h h0 h1 h2 h3 h4 => simp [execCfg_eq, cfgSequence_eq, h, h0, h1, h2, h3, h4]

/-- Every command ends in one of the ways `Ran` lists. -/
theorem ran_total (i : Instr) (s : State) : ∃ t, Ran i s t := by
  cases i with
  | enc inv v =>
    cases h : encodeDuty v inv with
    | none => exact ⟨_, .encOut h⟩
    | some p => exact ⟨_, .enc h⟩
  | dec inv on off =>
    cases h : decodeDuty on off inv with
    | none => exact ⟨_, .decOther h⟩
    | some v => exact ⟨_, .dec h⟩
  | setd ch inv v =>
    cases h : encodeDuty v inv with
    | none => exact ⟨_, .setdOut h⟩
    | some p =>
      cases hc : s.configured with
      | false => exact ⟨_, .setdUnconfigured h hc⟩
      | true =>
        cases h0 : (s.drawAt 0).fault with
        | false => exact ⟨_, .setd h hc h0⟩
        | true => exact ⟨_, .setdFault h hc h0⟩
  | getd ch inv =>
    cases hc : s.configured with
    | false => exact ⟨_, .getdUnconfigured hc⟩
    | true =>
      cases h0 : (s.drawAt 0).fault with
      | true => exact ⟨_, .getdFault hc h0⟩
      | false =>
        cases h : decodeDuty (onOf (s.answerBytes s.draw (chaddr ch))).toNat
            (offOf (s.answerBytes s.draw (chaddr ch))).toNat inv with
        | none => exact ⟨_, .getdOther hc h0 rfl h⟩
        | some v => exact ⟨_, .getd hc h0 rfl h⟩
  | cfg f =>
    by_cases h : f ≤ 23
    · exact ⟨_, .cfgOut h⟩
    · cases h0 : (s.drawAt 0).fault with
      | true => exact ⟨_, .cfgReadFault h h0⟩
      | false =>
        cases h1 : (s.drawAt 1).fault with
        | true => exact ⟨_, .cfgSleepFault h h0 h1⟩
        | false =>
          cases h2 : (s.drawAt 2).fault with
          | true => exact ⟨_, .cfgPrescaleFault h h0 h1 h2⟩
          | false =>
            cases h3 : (s.drawAt 3).fault with
            | true => exact ⟨_, .cfgRestoreFault h h0 h1 h2 h3⟩
            | false =>
              cases h4 : (s.drawAt 4).fault with
              | true => exact ⟨_, .cfgEnableFault h h0 h1 h2 h3 h4⟩
              | false => exact ⟨_, .cfg h h0 h1 h2 h3 h4⟩

/-- The inversion of `exec`: where it answers a next state, that is an end `Ran` lists. -/
theorem ran_of_exec {i : Instr} {s t : State} (h : exec i s = .next t) : Ran i s t := by
  obtain ⟨t', ht⟩ := ran_total i s
  have := ht.exec
  rw [h] at this
  cases this
  exact ht

end Sys2Proof.Machine
end

