-- ==== Sys2Proof/Laws/PerInstr.lean ====
section
/-! SUPPORT. One lemma per command: a word whose fields are the command's record decodes to the command. -/

namespace Sys2Proof.Laws.DecodesFromFields

/-- A word with the fields of a command that fits decodes to it (rules R64, R65 and R68). -/
def Statement (i : Instr) : Prop :=
  i.wellFormed = true → ∀ w, HasFields w i.cmd → decode w = .ok i

theorem enc (inv : Bool) (value : Int) : Statement (.enc inv value) := by
  intro h w k
  have hop := k.op; have hch := k.ch; have hinv := k.inv; have ha := k.a; have hb := k.b
  simp only [Instr.cmd, Op.code] at hop hch hinv ha hb
  simp [decode, opOf, hop, hch, hinv, ha, hb, k.rsv0, k.rsv1, invOf, valueOf, sext16_twos16 h]

theorem dec (inv : Bool) (on off : Nat) : Statement (.dec inv on off) := by
  intro _ w k
  have hop := k.op; have hch := k.ch; have hinv := k.inv; have ha := k.a; have hb := k.b
  simp only [Instr.cmd, Op.code] at hop hch hinv ha hb
  simp [decode, opOf, hop, hch, hinv, ha, hb, k.rsv0, k.rsv1, invOf]

theorem setd (ch : Channel) (inv : Bool) (value : Int) : Statement (.setd ch inv value) := by
  intro h w k
  have hop := k.op; have hch := k.ch; have hinv := k.inv; have ha := k.a; have hb := k.b
  simp only [Instr.cmd, Op.code] at hop hch hinv ha hb
  simp [decode, opOf, hop, hch, hinv, ha, hb, k.rsv0, k.rsv1, invOf, valueOf, chOf, sext16_twos16 h]

theorem getd (ch : Channel) (inv : Bool) : Statement (.getd ch inv) := by
  intro _ w k
  have hop := k.op; have hch := k.ch; have hinv := k.inv; have ha := k.a; have hb := k.b
  simp only [Instr.cmd, Op.code] at hop hch hinv ha hb
  simp [decode, opOf, hop, hch, hinv, ha, hb, k.rsv0, k.rsv1, invOf, chOf]

theorem cfg (frequency : Nat) : Statement (.cfg frequency) := by
  intro _ w k
  have hop := k.op; have hch := k.ch; have hinv := k.inv; have ha := k.a; have hb := k.b
  simp only [Instr.cmd, Op.code] at hop hch hinv ha hb
  simp [decode, opOf, hop, hch, hinv, ha, hb, k.rsv0, k.rsv1]

end Sys2Proof.Laws.DecodesFromFields
end

