-- ==== Sys2Proof/Tests/Slice0.lean ====
section
/-! SUPPORT. Tests of the model against the spec's own words (the encodings of 30_encoding.md, the vectors of
95_test_vectors.md), and for every statement with hypotheses a concrete case that meets them all. -/

namespace Sys2Proof.Machine.Tests

/-! ### Well-formedness: each check refuses an ill-formed command -/

theorem test_wf_enc_above : (Instr.enc false 32768).wellFormed = false := by decide
theorem test_wf_enc_below : (Instr.enc true (-32769)).wellFormed = false := by decide
theorem test_wf_enc_ends :
    (Instr.enc false 32767).wellFormed = true ∧ (Instr.enc false (-32768)).wellFormed = true := by decide
theorem test_wf_dec_on : (Instr.dec false 65536 0).wellFormed = false := by decide
theorem test_wf_dec_off : (Instr.dec false 0 65536).wellFormed = false := by decide
theorem test_wf_setd_value : (Instr.setd 0 false 32768).wellFormed = false := by decide
theorem test_wf_cfg : (Instr.cfg 65536).wellFormed = false := by decide
theorem test_wf_channel : channelOf 16 = none ∧ channelOf (-1) = none ∧ channelOf 15 = some 15 := by decide

/-! ### Decoding: words written out from the field table of rule R61, and the vectors of section 2.5 -/

/-- RSV1, B, A, RSV0, INV, CH, OP, bit by bit, of `enc.inv -1`. -/
theorem test_decode_enc_bits :
    decode (0b0000000000000000#16 ++ 0b0000000000000000#16 ++ 0b1111111111111111#16 ++ 0b0000000#7 ++ 0b1#1 ++
      0b0000#4 ++ 0b0001#4) = .ok (.enc true (-1)) := by rfl
theorem test_decode_dec_bits :
    decode (0b0000000000000000#16 ++ 0b0001000000000000#16 ++ 0b0000000000000001#16 ++ 0b0000000#7 ++ 0b0#1 ++
      0b0000#4 ++ 0b0010#4) = .ok (.dec false 1 4096) := by rfl
theorem test_decode_setd_bits :
    decode (0b0000000000000000#16 ++ 0b0000000000000000#16 ++ 0b0000100000000000#16 ++ 0b0000000#7 ++ 0b1#1 ++
      0b1001#4 ++ 0b0011#4) = .ok (.setd 9 true 2048) := by rfl
theorem test_decode_getd_bits :
    decode (0b0000000000000000#16 ++ 0b0000000000000000#16 ++ 0b0000000000000000#16 ++ 0b0000000#7 ++ 0b1#1 ++
      0b1111#4 ++ 0b0100#4) = .ok (.getd 15 true) := by rfl
theorem test_decode_cfg_bits :
    decode (0b0000000000000000#16 ++ 0b0000000000000000#16 ++ 0b0000001111101000#16 ++ 0b0000000#7 ++ 0b0#1 ++
      0b0000#4 ++ 0b0101#4) = .ok (.cfg 1000) := by rfl

theorem test_decode_reserved_opcodes :
    decode 0x0000000000000000#64 = .error .reservedOpcode ∧ decode 0x0000000000000006#64 = .error .reservedOpcode ∧
    decode 0x000000000000000F#64 = .error .reservedOpcode := ⟨rfl, rfl, rfl⟩
theorem test_decode_unused_fields :
    decode 0x0000000000050011#64 = .error .unusedField ∧ decode 0x0000100000000022#64 = .error .unusedField ∧
    decode 0x0000000100050023#64 = .error .unusedField ∧ decode 0x0000000000010024#64 = .error .unusedField ∧
    decode 0x0000000100000024#64 = .error .unusedField ∧ decode 0x0000000000320105#64 = .error .unusedField ∧
    decode 0x0000000000320035#64 = .error .unusedField := ⟨rfl, rfl, rfl, rfl, rfl, rfl, rfl⟩
theorem test_decode_reserved_bits :
    decode 0x0000000000050203#64 = .error .reservedBits ∧ decode 0x0001000000000004#64 = .error .reservedBits ∧
    decode 0x8000000000000004#64 = .error .reservedBits := ⟨rfl, rfl, rfl⟩
theorem test_decode_truncated : decodeBytes [0x01, 0, 0, 0, 0, 0, 0] = .error .truncated := rfl
theorem test_decodeTableWord :
    decodeTableWord 64 0x00000000FFFF0101 = some (.enc true (-1)) ∧ decodeTableWord 64 0x0000100000010002 =
      some (.dec false 1 4096) ∧ decodeTableWord 64 0x0000000008000193 = some (.setd 9 true 2048) ∧
    decodeTableWord 64 0x00000000000001F4 = some (.getd 15 true) ∧
    decodeTableWord 64 0x0000000003E80005 = some (.cfg 1000) ∧
    decodeTableWord 64 0x0000000000000006 = none := ⟨rfl, rfl, rfl, rfl, rfl, rfl⟩

/-! ### The assembler: the syntax column of sections 2 and 3 -/

theorem test_assemble_enc : assemble "enc.inv -1".toList = some 0x00000000FFFF0101#64 := by decide
theorem test_assemble_dec : assemble "dec 5, 100".toList = some 0x0000006400050002#64 := by decide
theorem test_assemble_setd : assemble "setd.inv 9, 2048".toList = some 0x0000000008000193#64 := by decide
theorem test_assemble_getd : assemble "getd.inv 0xF".toList = some 0x00000000000001F4#64 := by decide
theorem test_assemble_cfg : assemble "cfg 1000".toList = some 0x0000000003E80005#64 := by decide
theorem test_assemble_refuses :
    assemble "enc 32768".toList = none ∧ assemble "setd 16, 0".toList = none ∧ assemble "cfg.inv 50".toList = none ∧
    assemble "dec 0, 65536".toList = none := by decide

/-! ### Steps: vectors of sections 2 and 3 -/

/-- A transaction that is ok, under the deterministic oracle, with bus exclusion kept and no other master on the bus. -/
def okDraw : BusDraw := ⟨false, false, true, ⟨0, 0, 0, 0⟩, ⟨0, 0, 0, 0⟩, [], []⟩

/-- A transaction that faults; a write leaves these bytes. -/
def faultDraw : BusDraw := ⟨true, false, true, ⟨0, 0, 0, 0⟩, ⟨1, 2, 3, 4⟩, [], []⟩

/-- A transaction that another master's PRESCALE write overlaps. -/
def overlapDraw : BusDraw := ⟨false, true, true, ⟨0, 0, 0, 0⟩, ⟨1, 2, 3, 4⟩, [(0xFE, 9)], []⟩

/-- An ok transaction under the general oracle, across whose sleep the chip loses a byte of channel 0. -/
def sleepDraw : BusDraw := ⟨false, false, false, ⟨0, 0, 0, 0⟩, ⟨0, 0, 0, 0⟩, [], [(8, 0x55)]⟩

/-- A configured or unconfigured block before a chip in which ok writes have left those bytes, with those free values
coming. -/
def bench (configured : Bool) (chip : Memory) (draws : List BusDraw) : State :=
  { State.reset with configured := configured, chip := chip, written := chip, draws := draws }

/-- The state a command or a step ends in. -/
def after : Host.Outcome State Fault Refusal → State
  | .next s => s
  | .fault _ => State.reset
  | .refused _ => State.reset

/-- Vector EN4. -/
theorem test_enc_inverted_one :
    (after (exec (.enc true 1) State.reset)).responses = [⟨.ok, 0, 4094⟩] := by decide
/-- Vector EN17. -/
theorem test_enc_out_of_range :
    (after (exec (.enc false 4096) State.reset)).responses = [⟨.rangeError, 0, 0⟩] := by decide
/-- Vector DE4. -/
theorem test_dec_inverted_sentinel :
    (after (exec (.dec true 4096 0) State.reset)).responses = [⟨.ok, 0, 0⟩] := by decide
/-- Vector DE12. -/
theorem test_dec_4095_is_no_pattern :
    (after (exec (.dec false 0 4095) State.reset)).responses = [⟨.decodeError, 0, 4095⟩] := by decide

/-- Program P2, step 5. -/
theorem test_setd_writes_low_bytes_first :
    (after (exec (.setd 9 true 2048) (bench true [] [okDraw]))).history =
      [⟨.busWrite Config.chipAddr 0x2A [0x00, 0x00, 0xFF, 0x07], .ok⟩] := by rfl
/-- Program P1's bytes of `setd 1, 300`, and its response. -/
theorem test_setd_lands :
    (after (exec (.setd 1 false 300) (bench true [(0x0A, 9), (0x0E, 7)] [okDraw]))).chip =
      [(0x0A, 0), (0x0B, 0), (0x0C, 0x2C), (0x0D, 0x01), (0x0E, 7)] ∧
    (after (exec (.setd 1 false 300) (bench true [] [okDraw]))).responses = [⟨.ok, 0, 300⟩] := by decide

/-- Program P4, step 2. -/
theorem test_getd_foreign_pattern :
    (after (exec (.getd 7 false) (bench true [(0x22, 5), (0x23, 0), (0x24, 0x64), (0x25, 0)] [okDraw]))).responses =
      [⟨.decodeError, 5, 100⟩] := by decide
/-- Program P2, steps 3 and 4: the sentinel full on, with and without the invert flag. -/
theorem test_getd_sentinel :
    (after (exec (.getd 15 true) (bench true [(0x42, 0), (0x43, 0x10), (0x44, 0), (0x45, 0)] [okDraw]))).responses =
      [⟨.ok, 0, 0⟩] ∧
    (after (exec (.getd 15 false) (bench true [(0x42, 0), (0x43, 0x10), (0x44, 0), (0x45, 0)] [okDraw]))).responses =
      [⟨.ok, 4095, 0⟩] := by decide

/-- Vector CS4: MODE1 holds 11. -/
theorem test_cfg_sequence :
    (after (exec (.cfg 50) (bench false [(0, 0x11)] [okDraw, okDraw, okDraw, okDraw, okDraw]))).history =
      [⟨.busRead Config.chipAddr 0x00 1 [0x11], .ok⟩, ⟨.busWrite Config.chipAddr 0x00 [0x11], .ok⟩,
        ⟨.busWrite Config.chipAddr 0xFE [0x7A], .ok⟩, ⟨.busWrite Config.chipAddr 0x00 [0x11], .ok⟩,
        ⟨.wait Config.tSettle, .ok⟩, ⟨.busWrite Config.chipAddr 0x00 [0xB1], .ok⟩] := by rfl
/-- Vector CS6: the PRESCALE write faults. -/
theorem test_cfg_prescale_fault :
    (after (exec (.cfg 50) (bench true [(0, 0)] [okDraw, okDraw, faultDraw]))).responses = [⟨.busFault, 0, 0⟩] ∧
    (after (exec (.cfg 50) (bench true [(0, 0)] [okDraw, okDraw, faultDraw]))).configured = false := by decide

/-- Rules R51 and R52: a faulted write leaves any bytes in the chip, and the deterministic oracle at the last ok ones. -/
theorem test_oracle_after_faulted_write :
    (after (exec (.setd 0 false 50) (bench true [(6, 0), (7, 0), (8, 0x2C), (9, 1)] [faultDraw]))).chipQuad 6 =
      ⟨1, 2, 3, 4⟩ ∧
    (after (exec (.setd 0 false 50) (bench true [(6, 0), (7, 0), (8, 0x2C), (9, 1)] [faultDraw]))).oracleQuad 6 =
      ⟨0, 0, 0x2C, 1⟩ := by decide
/-- Rule R135: the bytes of an overlapped transaction are any bytes, the other master's as well as the block's. -/
theorem test_overlap_reaches_both_windows :
    (after (exec (.setd 0 false 50) (bench true [(0xFE, 0x7A)] [overlapDraw]))).chip =
      [(6, 1), (7, 2), (8, 3), (9, 4), (0xFE, 9)] ∧
    (after (exec (.setd 0 false 50) (bench true [(0xFE, 0x7A)] [overlapDraw]))).written =
      [(6, 1), (7, 2), (8, 3), (9, 4), (0xFE, 9)] := by decide
/-- Rule R49: each transaction takes a new draw of the channels' outputs, and a reset another. -/
theorem test_outputs_redrawn :
    (after (exec (.cfg 50) (bench false [(0, 0)] [okDraw, okDraw, okDraw, okDraw, okDraw]))).outputEpoch = 5 ∧
    (after (exec (.enc false 0) State.reset)).outputEpoch = 0 ∧
    (after (step { bench true [] [] with inbox := [.reset] })).outputEpoch = 1 := by decide

/-- Rule R126: the chip may lose a channel byte across CFG's sleep under the general oracle, which the deterministic oracle
does not, and keeps it under that one. -/
theorem test_sleep_keeps_by_oracle_only :
    (after (exec (.cfg 50) (bench false [(0, 0), (8, 0x2C)] [okDraw, sleepDraw, okDraw, okDraw, okDraw]))).chipByte 8 =
      0x55 ∧
    (after (exec (.cfg 50) (bench false [(0, 0), (8, 0x2C)] [okDraw, sleepDraw, okDraw, okDraw, okDraw]))).oracleByte 8 =
      0x2C ∧
    (after (exec (.cfg 50) (bench false [(0, 0), (8, 0x2C)]
      [okDraw, { sleepDraw with deterministic := true }, okDraw, okDraw, okDraw]))).chipByte 8 = 0x2C := by decide

/-- A word that the host presents first after reset runs as its command. -/
theorem test_step_runs_presented_word :
    step (State.reset.withFetchWord 64 0x0000000008000101) = exec (.enc true 2048) State.reset := by rfl
/-- Vector IL1 as a step. -/
theorem test_step_illegal :
    (after (step (State.reset.withFetchWord 64 0))).responses = [⟨.illegalCommand, 0, 0⟩] := by decide
theorem test_step_waits : step State.reset = .next State.reset := rfl

/-! ### Witnesses: for each statement with hypotheses, a case that meets them all together -/

theorem witness_DecodeEncodeAgree :
    (Instr.enc true (-32768)).wellFormed = true ∧ (Instr.dec true 65535 65535).wellFormed = true ∧
    (Instr.setd 15 true 32767).wellFormed = true ∧ (Instr.getd 15 false).wellFormed = true ∧
    (Instr.cfg 65535).wellFormed = true := by decide

theorem witness_EncodeDecodeAgree : decode 0x00000000FFFF01F3#64 = .ok (.setd 15 true (-1)) := rfl

/-- Also of StepRunsDecodedCommand's and EncodeDecodeAgree's hypothesis on the word: one word per operation. -/
theorem witness_OperandsAssembledFromFields :
    decode 0x0000000080000001#64 = .ok (.enc false (-32768)) ∧ decode 0x0000FFFFFFFF0102#64 = .ok (.dec true 65535 65535) ∧
    decode 0x000000007FFF01F3#64 = .ok (.setd 15 true 32767) ∧ decode 0x0000000000000004#64 = .ok (.getd 0 false) ∧
    decode 0x00000000FFFF0005#64 = .ok (.cfg 65535) := ⟨rfl, rfl, rfl, rfl, rfl⟩

theorem witness_OpcodeValues_reserved :
    (0x0000000000000000#64).extractLsb' 0 4 = 0x0#4 ∧ 0x6#4 ≤ (0x0000000000000006#64).extractLsb' 0 4 ∧
    0x6#4 ≤ (0x000000000000000F#64).extractLsb' 0 4 := by decide

/-- Both sides of each equivalence hold at the ends of the ranges. -/
theorem witness_AssemblerRefusesOperandsOutOfRange :
    assembleOperands .enc false [-32768] = some 0x0000000080000001#64 ∧
    assembleOperands .dec true [65535, 0] = some 0x00000000FFFF0102#64 ∧
    assembleOperands .setd false [15, 32767] = some 0x000000007FFF00F3#64 ∧
    assembleOperands .getd true [0] = some 0x0000000000000104#64 ∧
    assembleOperands .cfg false [65535] = some 0x00000000FFFF0005#64 := by decide

theorem witness_StepRunsDecodedCommand :
    (State.reset.present 0x0000000003E80005#64).inbox = .command 0x0000000003E80005#64 :: [] ∧
    decode 0x0000000003E80005#64 = .ok (.cfg 1000) := ⟨rfl, rfl⟩

/-- Each disjunct of the hypothesis: OP 0, OP 6, RSV0, RSV1, and the fields each operation does not use. -/
theorem witness_IllegalWordsAnswerIllegalCommand :
    (State.reset.present 0x0000000000000000#64).inbox = .command 0x0000000000000000#64 :: [] ∧
    (0x0000000000000000#64).extractLsb' 0 4 = 0 ∧ 6 ≤ ((0x0000000000000006#64).extractLsb' 0 4).toNat ∧
    (0x0000000000050203#64).extractLsb' 9 7 ≠ 0 ∧ (0x8000000000000004#64).extractLsb' 48 16 ≠ 0 ∧
    ((0x0000000000050011#64).extractLsb' 0 4 = 1 ∧ (0x0000000000050011#64).extractLsb' 4 4 ≠ 0) ∧
    ((0x0000000100050001#64).extractLsb' 0 4 = 1 ∧ (0x0000000100050001#64).extractLsb' 32 16 ≠ 0) ∧
    ((0x0000100000000022#64).extractLsb' 0 4 = 2 ∧ (0x0000100000000022#64).extractLsb' 4 4 ≠ 0) ∧
    ((0x0000000100050023#64).extractLsb' 0 4 = 3 ∧ (0x0000000100050023#64).extractLsb' 32 16 ≠ 0) ∧
    ((0x0000000000010024#64).extractLsb' 0 4 = 4 ∧ (0x0000000000010024#64).extractLsb' 16 16 ≠ 0) ∧
    ((0x0000000100000024#64).extractLsb' 0 4 = 4 ∧ (0x0000000100000024#64).extractLsb' 32 16 ≠ 0) ∧
    ((0x0000000000320035#64).extractLsb' 0 4 = 5 ∧ (0x0000000000320035#64).extractLsb' 4 4 ≠ 0) ∧
    ((0x0000000000320105#64).extractLsb' 0 4 = 5 ∧ (0x0000000000320105#64).getLsbD 8 = true) ∧
    ((0x0000000100320005#64).extractLsb' 0 4 = 5 ∧ (0x0000000100320005#64).extractLsb' 32 16 ≠ 0) := by decide

theorem witness_WaitsForCommand : State.reset.inbox = [] := rfl

theorem witness_ResetInputReturnsBlockToReset :
    ({ bench true [(0, 7)] [okDraw] with inbox := [.reset, .command 0] } : State).inbox = .reset :: [.command 0] := rfl

/-- Also of EveryStepAnswersNext's inner hypotheses. -/
theorem witness_EveryStepAnswersNext :
    State.reset.phase = .idle ∧ (State.reset.present 0).inbox ≠ [] := by decide

/-- The premise shared by ResponseHandedOverNotKept, ErrorPriority, BusFaultMeansLastTransactionFaulted,
CommandLeavesTheRestAlone and EventsStayInOwnedAddresses, for every command. -/
theorem witness_exec_next :
    (∃ t, exec (.enc false 0) State.reset = .next t) ∧ (∃ t, exec (.dec true 0 4096) State.reset = .next t) ∧
    (∃ t, exec (.setd 15 false 4095) (bench true [] [okDraw]) = .next t) ∧
    (∃ t, exec (.getd 0 true) (bench true [] [faultDraw]) = .next t) ∧
    (∃ t, exec (.cfg 24) (bench false [] [okDraw, faultDraw]) = .next t) :=
  ⟨⟨_, rfl⟩, ⟨_, rfl⟩, ⟨_, rfl⟩, ⟨_, rfl⟩, ⟨_, rfl⟩⟩

/-- CONFIGURED falls by a reset. -/
theorem witness_OnlyResetAndCfgWriteConfigured_reset :
    (after (step { bench true [] [] with inbox := [.reset] })).configured ≠ (bench true [] []).configured := by decide
/-- CONFIGURED rises by a CFG that returns OK. -/
theorem witness_OnlyResetAndCfgWriteConfigured_ok :
    (after (step ((bench false [(0, 0)] [okDraw, okDraw, okDraw, okDraw, okDraw]).present 0x0000000000320005#64))).configured ≠
      (bench false [(0, 0)] [okDraw, okDraw, okDraw, okDraw, okDraw]).configured := by decide
/-- CONFIGURED falls by a CFG whose first write faults. -/
theorem witness_OnlyResetAndCfgWriteConfigured_fault :
    (after (step ((bench true [(0, 0)] [okDraw, faultDraw]).present 0x0000000000320005#64))).configured ≠
      (bench true [(0, 0)] [okDraw, faultDraw]).configured := by decide

theorem witness_OnlySetdAndGetdReadConfigured :
    needsConfigured (.cfg 50) = false ∧ needsConfigured (.enc true 5) = false ∧ needsConfigured (.dec true 0 5) = false ∧
    ∃ t, exec (.cfg 50) (bench false [] [faultDraw]) = .next t := ⟨rfl, rfl, rfl, _, rfl⟩

/-- The clauses of ErrorPriority: an illegal word; a rejected operand in an unconfigured block; an unconfigured block;
a faulted transaction; and every transaction ok. -/
theorem witness_ErrorPriority :
    decode 0x0000000000000000#64 = .error .reservedOpcode ∧
    (operandRejected (.setd 0 false 4096) = true ∧ (bench false [] []).configured = false) ∧
    (operandRejected (.setd 0 false 4095) = false ∧ needsConfigured (.setd 0 false 4095) = true) ∧
    (after (exec (.getd 3 false) (bench true [] [faultDraw]))).responses = [⟨.busFault, 0, 0⟩] ∧
    (after (exec (.dec false 5 100) State.reset)).history = [] ∧
    operandRejected (.cfg 23) = true ∧ operandRejected (.cfg 24) = false := by
  refine ⟨rfl, ?_, ?_, ?_, ?_, ?_, ?_⟩ <;> decide

theorem witness_BusFaultMeansLastTransactionFaulted :
    (after (exec (.cfg 50) (bench true [(0, 0)] [okDraw, okDraw, okDraw, okDraw, faultDraw]))).responses =
      [⟨.busFault, 0, 0⟩] ∧
    (after (exec (.setd 0 false 0) (bench true [] [okDraw]))).responses = [⟨.ok, 0, 4096⟩] := by decide

/-- Addresses a command stores to, ones it does not, ones that no other master reaches, and ones a sleep keeps. -/
theorem witness_CommandLeavesTheRestAlone :
    (storesAt (.setd 1 false 0) (bench true [] [okDraw]) 0x0A ∧ ¬storesAt (.setd 1 false 0) (bench true [] [okDraw]) 0x09 ∧
      ¬storesAt (.setd 1 false 0) (bench true [] [okDraw]) 0x0E ∧ ¬storesAt (.getd 1 false) (bench true [] [okDraw]) 0x0A ∧
      storesAt (.cfg 50) State.reset 0xFE ∧ ¬storesAt (.cfg 50) State.reset 0x06) ∧
    (bench true [] [overlapDraw]).OthersAvoid 1 0x06 ∧ ¬(bench true [] [overlapDraw]).OthersAvoid 1 0xFE ∧
    (bench true [] [okDraw, sleepDraw]).SleepKeeps 1 0x06 ∧ ¬(bench true [] [okDraw, sleepDraw]).SleepKeeps 1 0x08 := by
  refine ⟨by simp [storesAt, chaddr, bench, okDraw, State.draw, State.drawAt], ?_, ?_, ?_, ?_⟩
  · intro k hk c hc
    obtain rfl : k = 0 := by omega
    rw [List.mem_singleton.mp hc]
    decide
  · exact fun h => h 0 (by omega) (0xFE, 9) (List.mem_singleton.mpr rfl) rfl
  · refine .inr fun c hc => ?_
    rw [List.mem_singleton.mp hc]
    decide
  · rintro (h | h)
    · cases h
    · exact h (8, 0x55) (List.mem_singleton.mpr rfl) rfl

/-- One event of each kind that a command appends. -/
theorem witness_EventsStayInOwnedAddresses :
    (after (exec (.cfg 50) (bench false [(0, 0)] [okDraw, okDraw, okDraw, okDraw, okDraw]))).history.length = 6 ∧
    ownedAddr 0x45 = true ∧ ownedAddr 0x46 = false ∧ ownedAddr 0x05 = false ∧ ownedAddr 0xFF = false := by decide

/-- Each command's premise is met by `witness_exec_next`; the illegal word's here. -/
theorem witness_StatusCodes :
    (State.reset.present 0x0000000000000006#64).inbox = .command 0x0000000000000006#64 :: [] ∧
    decode 0x0000000000000006#64 = .error .reservedOpcode := ⟨rfl, rfl⟩

theorem witness_EncAnswersPair :
    ((0 : Int) ≤ 0 ∧ (0 : Int) ≤ 4095 ∧ (4095 : Int) = if true then 4095 - 0 else 0) ∧
    ((0 : Int) ≤ 4095 ∧ (4095 : Int) ≤ 4095 ∧ (0 : Int) = if true then 4095 - 4095 else 4095) ∧
    ((0 : Int) ≤ 4094 ∧ (4094 : Int) ≤ 4095 ∧ (4094 : Int) = if false then 4095 - 4094 else 4094) := by decide
theorem witness_EncRejectsOutOfRange : (-1 : Int) < 0 ∧ (4095 : Int) < 4096 := by decide
theorem witness_DecAnswersValue :
    ((0 : Nat) = 0 ∧ 1 ≤ 4094 ∧ 4094 ≤ 4094) ∧ ((4096 : Nat) = 4096 ∧ (0 : Nat) = 0) ∧ 1 ≤ 1 := by decide
theorem witness_DecRejectsOtherPatterns :
    (0 ≤ 65535 ∧ 4095 ≤ 65535 ∧ ¬((0 : Nat) = 0 ∧ 4095 = 4096) ∧ ¬((0 : Nat) = 4096 ∧ 4095 = 0) ∧
      ¬((0 : Nat) = 0 ∧ 1 ≤ 4095 ∧ 4095 ≤ 4094)) ∧
    (65535 ≤ 65535 ∧ ¬((65535 : Nat) = 0 ∧ 65535 = 4096) ∧ ¬((65535 : Nat) = 4096 ∧ 65535 = 0)) := by decide
theorem witness_CodecRoundTrip : (0 : Nat) ≤ 4095 ∧ (4095 : Nat) ≤ 4095 := by decide
theorem witness_EncoderImage : encodeDuty 4095 true = some ⟨0, 4096⟩ ∧ encodeDuty 1 false = some ⟨0, 1⟩ := by decide
theorem witness_InvertIsComplement : (0 : Int) ≤ 0 ∧ (0 : Int) ≤ 4095 ∧ decodeDuty 0 4094 false = some 4094 := by decide

theorem witness_SetdWritesChannelBlock :
    (encodeDuty 0 false = some ⟨0, 4096⟩ ∧ encodeDuty 4095 false = some ⟨4096, 0⟩ ∧ encodeDuty 4094 true = some ⟨0, 1⟩) ∧
    (bench true [] [okDraw]).configured = true ∧ (bench true [] [okDraw]).draw.fault = false ∧
    (bench true [] [okDraw]).draw.overlapped = false := by decide
theorem witness_SetdBusFault :
    encodeDuty 300 false = some ⟨0, 300⟩ ∧ (bench true [] [faultDraw]).configured = true ∧
    (bench true [] [faultDraw]).draw.fault = true := by decide
theorem witness_SetdChecksBeforeTheBus :
    (-1 : Int) < 0 ∧ (4095 : Int) < 4096 ∧ ((0 : Int) ≤ 4095 ∧ (4095 : Int) ≤ 4095 ∧ State.reset.configured = false) := by
  decide

/-- The image's bytes under the deterministic oracle, and any bytes under the general one. -/
theorem witness_GetdReturnsDuty :
    ((bench true [(6, 0), (7, 0), (8, 0xFE), (9, 0x0F)] [okDraw]).configured = true ∧
      (bench true [(6, 0), (7, 0), (8, 0xFE), (9, 0x0F)] [okDraw]).draw.fault = false ∧
      (bench true [(6, 0), (7, 0), (8, 0xFE), (9, 0x0F)] [okDraw]).oracleQuad (chaddr 0) = ⟨0, 0, 0xFE, 0x0F⟩ ∧
      decodeDuty 0 (0xFE + 256 * 0x0F) true = some 1) ∧
    ((bench true [] [⟨false, true, false, ⟨0, 0x10, 0, 0⟩, default, [], []⟩]).draw.bytes = ⟨0, 0x10, 0, 0⟩ ∧
      decodeDuty (256 * 0x10) 0 false = some 4095) := by decide
theorem witness_GetdReportsForeignPattern :
    (bench true [(6, 5), (7, 0), (8, 100), (9, 0)] [okDraw]).configured = true ∧
    (bench true [(6, 5), (7, 0), (8, 100), (9, 0)] [okDraw]).draw.fault = false ∧
    (bench true [(6, 5), (7, 0), (8, 100), (9, 0)] [okDraw]).oracleQuad (chaddr 0) = ⟨5, 0, 100, 0⟩ ∧
    decodeDuty 5 100 false = none := by decide
theorem witness_GetdUnconfiguredOrFaulted :
    State.reset.configured = false ∧
    ((bench true [] [faultDraw]).configured = true ∧ (bench true [] [faultDraw]).draw.fault = true) := by decide

/-- SETD returned OK, and the draws that come next meet the premises of both read-back statements. -/
theorem witness_GetdReadsBackSetd :
    (after (exec (.setd 3 true 300) (bench true [] [okDraw, okDraw]))).responses = [⟨.ok, 0, 3795⟩] ∧
    (bench true [] [okDraw, okDraw]).draw.overlapped = false ∧
    (after (exec (.setd 3 true 300) (bench true [] [okDraw, okDraw]))).draw = okDraw := by decide

/-- A run of a SETD to another channel, a CFG and an illegal word, after a SETD of channel 0 that returned OK. -/
theorem witness_DutyKeptAcrossARun :
    let ws : List Word := [0x00000000012C0013#64, 0x0000000000320005#64, 0x0000000000000006#64]
    let s := { bench true [(0, 0)] (List.replicate 17 okDraw) with inbox := ws.map HostInput.command }
    ∃ t u, exec (.setd 0 false 50) s = .next t ∧ t.responses = s.responses ++ [⟨.ok, 0, 50⟩] ∧
      s.draw.overlapped = false ∧ (∀ k ≤ 5 * ws.length, (t.drawAt k).overlapped = false) ∧
      t.inbox = ws.map HostInput.command ∧ (∀ w ∈ ws, ∀ inv' v', decode w ≠ .ok (.setd 0 inv' v')) ∧
      Sys2Proof.core.run ws.length t = .next u ∧ u.configured = true ∧ u.draw.fault = false ∧
      u.draw.deterministic = true := by
  refine ⟨_, _, rfl, rfl, rfl, ?_, rfl, ?_, rfl, rfl, rfl, rfl⟩
  · intro k hk
    simp only [List.length_cons, List.length_nil] at hk
    interval_cases k <;> rfl
  · intro w hw inv' v' hd
    simp only [List.mem_cons, List.not_mem_nil, or_false] at hw
    rcases hw with rfl | rfl | rfl
    · rw [show decode 0x00000000012C0013#64 = .ok (.setd 1 false 300) from rfl] at hd
      simp at hd
    · rw [show decode 0x0000000000320005#64 = .ok (.cfg 50) from rfl] at hd
      simp at hd
    · rw [show decode 0x0000000000000006#64 = .error .reservedOpcode from rfl] at hd
      simp at hd

theorem witness_CfgRejectsLowFrequency : (0 : Nat) ≤ 23 ∧ (23 : Nat) ≤ 23 := by decide
theorem witness_PrescaleRoundsExactly :
    prescale 24 = 254 ∧ prescale 2442 = 2 ∧ prescale 4069 = 2 ∧ prescale 4070 = 1 ∧ prescale 12207 = 1 ∧
    prescale 12208 = 0 ∧ prescale 65535 = 0 ∧ prescale 23 = 265 := by decide
theorem witness_CfgRunsFrequencySequence :
    24 ≤ 24 ∧ (254 : Nat) = (50000000 + 4096 * 24) / (8192 * 24) ∧
    (∀ k < 5, ((bench false [(0, 0x21)] [okDraw, okDraw, okDraw, okDraw, okDraw]).drawAt k).fault = false) ∧
    (∀ k < 5, ((bench false [(0, 0x21)] [okDraw, okDraw, okDraw, okDraw, okDraw]).drawAt k).overlapped = false) ∧
    (∀ k < 5, ((bench false [(0, 0x21)] [okDraw, okDraw, okDraw, okDraw, okDraw]).drawAt k).others = []) ∧
    (bench false [(0, 0x21)] [okDraw, okDraw, okDraw, okDraw, okDraw]).oracleByte 0x00 = 0x21 := by decide
/-- Also of CfgWriteFaultEndsSequence's premise on the sleep: a register that no other master reaches and the chip keeps. -/
theorem witness_CfgRunsFrequencySequence_kept :
    let s := bench false [(0, 0x21)] [okDraw, okDraw, okDraw, okDraw, okDraw]
    s.OthersAvoid 5 0x06 ∧ s.SleepKeeps 1 0x06 ∧ s.SleepKeeps 1 0xFE :=
  ⟨State.othersAvoid_of_none (by decide) 0x06, .inl rfl, .inl rfl⟩
theorem witness_CfgReadFault : 24 ≤ 65535 ∧ (bench true [] [faultDraw]).draw.fault = true := by decide
/-- Each of the four writes can be the first transaction that faults. -/
theorem witness_CfgWriteFaultEndsSequence :
    (∀ j ≤ 0, ((bench true [(0, 0)] [okDraw, faultDraw]).drawAt j).fault = false) ∧
    ((bench true [(0, 0)] [okDraw, faultDraw]).drawAt (0 + 1)).fault = true ∧
    (∀ j ≤ 1, ((bench true [(0, 0)] [okDraw, okDraw, faultDraw]).drawAt j).fault = false) ∧
    ((bench true [(0, 0)] [okDraw, okDraw, faultDraw]).drawAt (1 + 1)).fault = true ∧
    (∀ j ≤ 2, ((bench true [(0, 0)] [okDraw, okDraw, okDraw, faultDraw]).drawAt j).fault = false) ∧
    ((bench true [(0, 0)] [okDraw, okDraw, okDraw, faultDraw]).drawAt (2 + 1)).fault = true ∧
    (∀ j ≤ 3, ((bench true [(0, 0)] [okDraw, okDraw, okDraw, okDraw, faultDraw]).drawAt j).fault = false) ∧
    ((bench true [(0, 0)] [okDraw, okDraw, okDraw, okDraw, faultDraw]).drawAt (3 + 1)).fault = true ∧
    (bench true [(0, 0)] [okDraw, okDraw, okDraw, okDraw, faultDraw]).oracleByte 0x00 = 0 := by decide

/-- A state that meets the invariant and steps on: reset, with a CFG presented. -/
theorem witness_StepKeepsInvariant :
    (State.reset.present 0x0000000000320005#64).Inv ∧
    ∃ t, step (State.reset.present 0x0000000000320005#64) = .next t := by
  exact ⟨⟨rfl, rfl, rfl, rfl⟩, _, rfl⟩

/-- A state that meets the invariant and whose H holds a PRESCALE write: after a CFG whose PRESCALE write faulted. -/
theorem witness_PrescaleWrittenOnlyBetweenSleepAndRestore_fault :
    let e := after (exec (.cfg 50) (bench false [(0, 0)] [okDraw, okDraw, faultDraw]))
    e.Inv ∧ e.history =
      [⟨.busRead Config.chipAddr 0x00 1 [0], .ok⟩, ⟨.busWrite Config.chipAddr 0x00 [0x10], .ok⟩] ++
        ⟨.busWrite Config.chipAddr 0xFE [0x7A], .fault⟩ :: [] := by
  refine ⟨⟨rfl, rfl, rfl, ?_⟩, rfl⟩
  show monitorOf [⟨.busRead Config.chipAddr 0x00 1 [0], .ok⟩, ⟨.busWrite Config.chipAddr 0x00 [0x10], .ok⟩,
    ⟨.busWrite Config.chipAddr 0xFE [0x7A], .fault⟩] = ⟨.rest, false⟩
  simp [monitorOf, Monitor.start, Monitor.observe, Monitor.observeAtRest, Monitor.expectWrite, sleepValue]

/-- The same after a CFG that returned OK: the PRESCALE write is ok and the restore write follows. -/
theorem witness_PrescaleWrittenOnlyBetweenSleepAndRestore_ok :
    let e := after (exec (.cfg 50) (bench false [(0, 0)] [okDraw, okDraw, okDraw, okDraw, okDraw]))
    e.Inv ∧ e.history =
      [⟨.busRead Config.chipAddr 0x00 1 [0], .ok⟩, ⟨.busWrite Config.chipAddr 0x00 [0x10], .ok⟩] ++
        ⟨.busWrite Config.chipAddr 0xFE [0x7A], .ok⟩ ::
          [⟨.busWrite Config.chipAddr 0x00 [0], .ok⟩, ⟨.wait Config.tSettle, .ok⟩,
            ⟨.busWrite Config.chipAddr 0x00 [0xA1], .ok⟩] := by
  refine ⟨⟨rfl, rfl, rfl, ?_⟩, rfl⟩
  show monitorOf [⟨.busRead Config.chipAddr 0x00 1 [0], .ok⟩, ⟨.busWrite Config.chipAddr 0x00 [0x10], .ok⟩,
    ⟨.busWrite Config.chipAddr 0xFE [0x7A], .ok⟩, ⟨.busWrite Config.chipAddr 0x00 [0], .ok⟩,
    ⟨.wait Config.tSettle, .ok⟩, ⟨.busWrite Config.chipAddr 0x00 [0xA1], .ok⟩] = ⟨.rest, true⟩
  simp [monitorOf, Monitor.start, Monitor.observe, Monitor.observeAtRest, Monitor.expectWrite, sleepValue, restoreValue,
    aiValue]

theorem witness_CanonicalImagesAreEqual :
    Memory.wf [(0, 7), (0x45, 1), (0xFE, 3)] = true ∧ Memory.wf [(0, 7), (0, 7)] = false ∧ Memory.wf [(256, 1)] = false := by
  decide

theorem witness_RunEndsWithOneResponsePerWord :
    (({ State.reset with inbox := [.command 1, .command 6] } : State).inbox = [1, 6].map HostInput.command) := rfl

/-- An ENC and a SETD: no CFG among them. -/
theorem witness_NoBusTrafficBeforeCfg :
    let s := { State.reset with inbox := [.command 1, .command 3] }
    s.inbox = [1, 3].map HostInput.command ∧ s.configured = false ∧
      ∀ w ∈ ([1, 3] : List Word), ∀ f, decode w ≠ .ok (.cfg f) := by
  refine ⟨rfl, rfl, ?_⟩
  intro w hw f hd
  rcases List.mem_cons.mp hw with rfl | hw
  · rw [show decode 1 = .ok (.enc false 0) from rfl] at hd
    simp at hd
  · rw [List.mem_singleton.mp hw, show decode 3 = .ok (.setd 0 false 0) from rfl] at hd
    simp at hd

/-- Reset follows H, and a SETD whose write faults is a step of such a state that no transaction overlaps. -/
theorem witness_StepKeepsOracleAtLastOkWrite :
    let s := (State.reset.present 0x0000000000320005#64)
    let d := { s with draws := [okDraw, faultDraw, okDraw, okDraw, okDraw] }
    d.OracleFollowsHistory ∧ (∀ k < 5, (d.drawAt k).overlapped = false) ∧ ∃ t, step d = .next t :=
  ⟨fun _ => rfl, by decide, _, rfl⟩

/-- Other masters that reach PRESCALE only, one of them overlapping, and a sleep that loses a channel byte. -/
theorem witness_StepReachesOwnedAddressesOnly :
    let s := { State.reset.present 0x0000000000320005#64 with
      draws := [overlapDraw, sleepDraw, okDraw, okDraw, okDraw] }
    s.OwnedOnly ∧ (∀ k < 5, ∀ c ∈ (s.drawAt k).others, ownedAddr c.1.toNat = true) ∧
      (∀ k < 5, ∀ c ∈ (s.drawAt k).lost, ownedAddr c.1.toNat = true) ∧ ∃ t, step s = .next t :=
  ⟨⟨by decide, by decide⟩, fun
    | 0, _, _, hc => by rw [List.mem_singleton.mp hc]; decide
    | 1, _, _, hc | 2, _, _, hc | 3, _, _, hc | 4, _, _, hc => (nomatch hc), fun
    | 1, _, _, hc => by rw [List.mem_singleton.mp hc]; decide
    | 0, _, _, hc | 2, _, _, hc | 3, _, _, hc | 4, _, _, hc => (nomatch hc), _, rfl⟩

/-- A SETD to channel 1, seen from channel 0. -/
theorem witness_StepKeepsChannelBlock :
    let s := { (bench true [] [okDraw, okDraw, okDraw, okDraw, okDraw]) with inbox := [.command 0x00000000012C0013#64] }
    (∀ k < 5, (s.drawAt k).overlapped = false) ∧ (∀ k < 5, (s.drawAt k).deterministic = true) ∧
      (∀ k < 5, (s.drawAt k).others = []) ∧ s.inbox = .command 0x00000000012C0013#64 :: [] ∧ decode 0x00000000012C0013#64 = .ok (.setd 1 false 300) ∧
      ∃ t, step s = .next t :=
  ⟨by decide, by decide, by decide, rfl, rfl, _, rfl⟩

/-- A CFG with a PRESCALE write appends five transactions and a wait. -/
theorem witness_ChannelOutputsUnspecifiedAfterTransactions :
    ((after (exec (.cfg 50) (bench false [(0, 0)] [okDraw, okDraw, okDraw, okDraw, okDraw]))).history.filter
      Event.isTransaction).length = 5 := by decide

/-- Both kinds of oracle at the sleep write. -/
theorem witness_ChipKeepsChannelsInSleepOnlyByOracle :
    let s := bench true [] [okDraw, sleepDraw, okDraw, okDraw, okDraw]
    let d := bench true [] [okDraw, okDraw, okDraw, okDraw, okDraw]
    24 ≤ 24 ∧ (∀ k < 5, (s.drawAt k).fault = false ∧ (s.drawAt k).overlapped = false ∧ (s.drawAt k).others = []) ∧
      (s.drawAt 1).deterministic = false ∧ (s.drawAt 1).lost = [(8, 0x55)] ∧
      (∀ k < 5, (d.drawAt k).fault = false ∧ (d.drawAt k).overlapped = false ∧ (d.drawAt k).others = []) ∧
      (d.drawAt 1).deterministic = true := by decide

end Sys2Proof.Machine.Tests
end

section
/-! PROOFS. What one bus write and each stage of CFG leave unchanged and make readable, for a register of the chip and
for the deterministic oracle; then CFG's frequency sequence (O42). -/

namespace Sys2Proof.Machine

/-! ### Registers kept across several transactions -/

theorem OracleKept.trans {s t u : State} {a : Nat} (h : OracleKept s t a) (h' : OracleKept t u a) :
    OracleKept s u a :=
  ⟨h'.lastWrite.trans h.lastWrite, h'.answers.trans h.answers⟩

theorem RegisterKept.trans {s t u : State} {a : Nat} (h : RegisterKept s t a) (h' : RegisterKept t u a) :
    RegisterKept s u a :=
  ⟨h.toOracleKept.trans h'.toOracleKept, h'.listed.trans h.listed, h'.holds.trans h.holds⟩

/-- Sleep does not change what the deterministic oracle answers (rule R126). -/
theorem State.throughSleep_oracleKept (s : State) (a : Nat) : OracleKept s s.throughSleep a := ⟨rfl, rfl⟩

theorem State.throughSleep_registerKept {s : State} {a : Nat} (h : s.SleepKeeps 0 a) :
    RegisterKept s s.throughSleep a :=
  registerKept_of rfl (State.chipThroughSleep_kept h) rfl

/-- Writing CONFIGURED and answering the host change no register. -/
theorem State.ended_registerKept (s : State) (c : Bool) (e : Status) (r0 r1 : Half) (a : Nat) :
    RegisterKept s ((s.setConfigured c).respond e r0 r1) a :=
  ⟨⟨rfl, rfl⟩, rfl, rfl⟩

/-! ### A state that has the images of one register write -/

section registerWrite
variable {s t : State} {addr a : Nat} {b : Byte}

/-- A register write keeps every other register that no other master reaches. -/
theorem registerKept_of_write (he : t.chipEpoch = s.chipEpoch) (hc : t.chip = s.chipAfterWrite addr [b])
    (hw : t.written = s.writtenAfterWrite addr [b]) (ha : a ≠ addr) (ho : s.OthersAvoid 1 a) :
    RegisterKept s t a := by
  have outside : a < addr ∨ addr + [b].length ≤ a := by rw [List.length_singleton]; omega
  refine registerKept_of he ?_ ?_
  · rw [hc, State.chipAfterWrite_outside (by simp) outside ho]
  · rw [hw, State.writtenAfterWrite_outside outside ho]

/-- With bus exclusion kept, what other masters reach is not seen by the deterministic oracle (rule R51). -/
theorem oracleKept_of_exclusive_write (he : t.chipEpoch = s.chipEpoch)
    (hw : t.written = s.writtenAfterWrite addr [b]) (ha : a ≠ addr) (hv : (s.drawAt 0).overlapped = false) :
    OracleKept s t a := by
  refine oracleKept_of he ?_
  rw [hw, State.writtenAfterWrite_eq _ _ hv]
  split
  · rfl
  · exact Memory.byte?_setBlock_outside _ _ _ _ (by rw [List.length_singleton]; omega)

/-- A write that does not fault and is not overlapped is what the register then holds (rules R43 and R135). -/
theorem chipByte_of_write (hc : t.chip = s.chipAfterWrite addr [b]) (hf : (s.drawAt 0).fault = false)
    (hv : (s.drawAt 0).overlapped = false) : t.chipByte addr = b := by
  refine State.chipByte_of_byte? ?_
  rw [hc, State.chipAfterWrite_ok _ _ hf hv]
  exact Memory.byte?_set_self _ _ _

/-- A write that does not fault and is not overlapped is what the deterministic oracle then answers (rule R51). -/
theorem oracleByte_of_write (hw : t.written = s.writtenAfterWrite addr [b]) (hf : (s.drawAt 0).fault = false)
    (hv : (s.drawAt 0).overlapped = false) : t.oracleByte addr = b := by
  refine State.oracleByte_of_byte? ?_
  rw [hw, State.writtenAfterWrite_eq _ _ hv, hf]
  exact Memory.byte?_set_self _ _ _

end registerWrite

/-! ### What each stage of CFG keeps -/

/-- The MODE1 byte CFG read, by the kind of oracle (rules R51 and R135). -/
theorem cfgOld_eq (s : State) :
    cfgOld s = if s.draw.deterministic = true ∧ s.draw.overlapped = false then s.oracleByte 0x00
      else s.draw.bytes.b0 := by
  rw [cfgOld, State.answerBytes_eq, apply_ite Quad.b0]
  rfl

section stages
variable {s : State} (old : Byte) (f : Nat) {a : Nat}

theorem cfgRead_registerKept (ha : a ≠ 0x00) (ho : s.OthersAvoid 1 a) : RegisterKept s (cfgRead s) a := by
  have outside : s.draw.overlapped = true → a < 0 ∨ 0 + 1 ≤ a := fun _ => by omega
  refine registerKept_of (cfgRead_chipEpoch s) ?_ ?_
  · rw [cfgRead_chip, State.chipAfterRead_outside outside ho]
  · rw [cfgRead_written, State.writtenAfterRead_outside outside ho]

/-- Apart from the sleep itself, the sleep write keeps what any register write keeps. -/
theorem cfgSlept_registerKept_afterSleep (ha : a ≠ 0x00) (ho : s.OthersAvoid 1 a) :
    RegisterKept s.throughSleep (cfgSlept old s) a :=
  registerKept_of_write (cfgSlept_chipEpoch s old) (cfgSlept_chip s old) (cfgSlept_written s old) ha ho

theorem cfgSlept_oracleKept (ha : a ≠ 0x00) (ho : s.OthersAvoid 1 a) : OracleKept s (cfgSlept old s) a :=
  (s.throughSleep_oracleKept a).trans (cfgSlept_registerKept_afterSleep old ha ho).toOracleKept

theorem cfgSlept_registerKept (ha : a ≠ 0x00) (ho : s.OthersAvoid 1 a) (hk : s.SleepKeeps 0 a) :
    RegisterKept s (cfgSlept old s) a :=
  (State.throughSleep_registerKept hk).trans (cfgSlept_registerKept_afterSleep old ha ho)

theorem cfgPrescaled_registerKept (ha : a ≠ 0xFE) (ho : s.OthersAvoid 1 a) : RegisterKept s (cfgPrescaled f s) a :=
  registerKept_of_write (cfgPrescaled_chipEpoch s f) (cfgPrescaled_chip s f) (cfgPrescaled_written s f) ha ho

theorem cfgRestored_registerKept (ha : a ≠ 0x00) (ho : s.OthersAvoid 1 a) : RegisterKept s (cfgRestored old s) a :=
  registerKept_of_write (cfgRestored_chipEpoch s old) (cfgRestored_chip s old) (cfgRestored_written s old) ha ho

theorem cfgEnabled_registerKept (ha : a ≠ 0x00) (ho : s.OthersAvoid 1 a) : RegisterKept s (cfgEnabled old s) a :=
  registerKept_of_write (cfgEnabled_chipEpoch s old) (cfgEnabled_chip s old) (cfgEnabled_written s old) ha ho

/-! ### The state after all five transactions -/

/-- CFG's state once its five transactions are done, before it ends. -/
def cfgTransacted (f : Nat) (s : State) : State :=
  cfgEnabled (cfgOld s) (cfgRestored (cfgOld s) (cfgPrescaled f (cfgSlept (cfgOld s) (cfgRead s))))

/-- The PRESCALE, restore and auto-increment writes, which follow the sleep write, keep every register but MODE1 and
PRESCALE that no other master reaches. -/
theorem cfgEnabled_registerKept_fromSlept (ha : a ≠ 0x00) (hp : a ≠ 0xFE) (ho : s.OthersAvoid 3 a) :
    RegisterKept s (cfgEnabled old (cfgRestored old (cfgPrescaled f s))) a := by
  have later : ∀ {t : State} (n : Nat), n + 1 ≤ 3 → (∀ k, t.drawAt k = s.drawAt (k + n)) → t.OthersAvoid 1 a :=
    fun n hn ht => State.othersAvoid_later (State.othersAvoid_mono ho hn) ht
  exact (cfgPrescaled_registerKept f hp (later 0 (by omega) fun k => rfl)).trans <|
    (cfgRestored_registerKept old ha (later 1 (by omega) fun k => by simp)).trans <|
    cfgEnabled_registerKept old ha (later 2 (by omega) fun k => by simp)

/-- CFG leaves every register but MODE1 and PRESCALE that no other master reaches as it was: for the deterministic
oracle always, in the chip where it keeps the register across the sleep (rule R126). -/
theorem cfgTransacted_kept (ha : a ≠ 0x00) (hp : a ≠ 0xFE) (ho : s.OthersAvoid 5 a) :
    OracleKept s (cfgTransacted f s) a ∧ (s.SleepKeeps 1 a → RegisterKept s (cfgTransacted f s) a) := by
  have hoSleep : (cfgRead s).OthersAvoid 1 a :=
    State.othersAvoid_later (n := 1) (State.othersAvoid_mono ho (by omega)) fun k => by simp
  have read := cfgRead_registerKept ha (State.othersAvoid_mono ho (by omega))
  have rest := cfgEnabled_registerKept_fromSlept (s := cfgSlept (cfgOld s) (cfgRead s)) (cfgOld s) f ha hp
    (State.othersAvoid_later (n := 2) ho fun k => by simp)
  refine ⟨(read.toOracleKept.trans (cfgSlept_oracleKept _ ha hoSleep)).trans rest.toOracleKept, fun hk => ?_⟩
  have hkSleep : (cfgRead s).SleepKeeps 0 a := (State.sleepKeeps_congr (cfgRead_drawAt s 0) a).mpr hk
  exact (read.trans (cfgSlept_registerKept _ ha hoSleep hkSleep)).trans rest

end stages

section transacted
variable {s : State} (f : Nat)

/-- The six events of the mandatory sequence, where no transaction faults (rules R95 and R134). -/
theorem cfgTransacted_history (hf : ∀ k < 5, (s.drawAt k).fault = false) :
    (cfgTransacted f s).history = s.history ++
      [⟨.busRead Config.chipAddr 0x00 1 [cfgOld s], .ok⟩, ⟨.busWrite Config.chipAddr 0x00 [sleepValue (cfgOld s)], .ok⟩,
        ⟨.busWrite Config.chipAddr 0xFE [prescaleByte f], .ok⟩,
        ⟨.busWrite Config.chipAddr 0x00 [restoreValue (cfgOld s)], .ok⟩, ⟨.wait Config.tSettle, .ok⟩,
        ⟨.busWrite Config.chipAddr 0x00 [aiValue (cfgOld s)], .ok⟩] := by
  simp [cfgTransacted, hf]

/-- CFG's last write is what MODE1 holds and what the deterministic oracle answers for it. -/
theorem cfgTransacted_mode1 (hf : (s.drawAt 4).fault = false) (hv : (s.drawAt 4).overlapped = false) :
    (cfgTransacted f s).chipByte 0x00 = aiValue (cfgOld s) ∧
      (cfgTransacted f s).oracleByte 0x00 = aiValue (cfgOld s) :=
  ⟨chipByte_of_write (cfgEnabled_chip _ _) (by simpa using hf) (by simpa using hv),
    oracleByte_of_write (cfgEnabled_written _ _) (by simpa using hf) (by simpa using hv)⟩

/-- The two MODE1 writes after the PRESCALE write do not change what the deterministic oracle answers for PRESCALE. -/
theorem cfgTransacted_prescale_oracle (hf : (s.drawAt 2).fault = false)
    (hv : ∀ k < 5, (s.drawAt k).overlapped = false) : (cfgTransacted f s).oracleByte 0xFE = prescaleByte f := by
  have restored := oracleKept_of_exclusive_write (a := 0xFE) (cfgRestored_chipEpoch
      (cfgPrescaled f (cfgSlept (cfgOld s) (cfgRead s))) (cfgOld s))
    (cfgRestored_written _ _) (by decide) (by simpa using hv 3 (by omega))
  have enabled := oracleKept_of_exclusive_write (a := 0xFE) (cfgEnabled_chipEpoch
      (cfgRestored (cfgOld s) (cfgPrescaled f (cfgSlept (cfgOld s) (cfgRead s)))) (cfgOld s))
    (cfgEnabled_written _ _) (by decide) (by simpa using hv 4 (by omega))
  exact (restored.trans enabled).answers.trans <|
    oracleByte_of_write (cfgPrescaled_written _ f) (by simpa using hf) (by simpa using hv 2 (by omega))

/-- PRESCALE holds what CFG wrote where no other master reaches the chip afterwards. -/
theorem cfgTransacted_prescale_chip (hf : (s.drawAt 2).fault = false) (hv : (s.drawAt 2).overlapped = false)
    (ho : ∀ k < 5, (s.drawAt k).others = []) : (cfgTransacted f s).chipByte 0xFE = prescaleByte f := by
  have avoid := State.othersAvoid_of_none ho 0xFE
  have restored := cfgRestored_registerKept (s := cfgPrescaled f (cfgSlept (cfgOld s) (cfgRead s))) (cfgOld s)
    (a := 0xFE) (by decide)
    (State.othersAvoid_later (n := 3) (State.othersAvoid_mono avoid (by omega)) fun k => by simp)
  have enabled := cfgEnabled_registerKept
    (s := cfgRestored (cfgOld s) (cfgPrescaled f (cfgSlept (cfgOld s) (cfgRead s)))) (cfgOld s) (a := 0xFE) (by decide)
    (State.othersAvoid_later (n := 4) avoid fun k => by simp)
  exact (restored.trans enabled).holds.trans <|
    chipByte_of_write (cfgPrescaled_chip _ f) (by simpa using hf) (by simpa using hv)

/-- However a CFG that has run its five transactions answers, it has used up their free values and no more. -/
theorem cfgTransacted_endsIn (c : Bool) (e : Status) (r0 r1 : Half) :
    EndsIn s 5 (((cfgTransacted f s).setConfigured c).respond e r0 r1) where
  idle := rfl
  inbox := by simp [cfgTransacted]
  chipEpoch := by simp [cfgTransacted]
  outputEpoch := by simp [cfgTransacted]
  drawAt k := by simp [cfgTransacted]

/-- Where no transaction faults, CFG answers the prescale value and the MODE1 byte it read, and sets CONFIGURED. -/
theorem execCfg_ok (hr : 24 ≤ f) (hf : ∀ k < 5, (s.drawAt k).fault = false) :
    exec (.cfg f) s = .next (((cfgTransacted f s).setConfigured true).respond .ok (BitVec.ofNat 16 (prescale f))
      ((cfgOld s).setWidth 16)) :=
  (Ran.cfg (by omega) (hf 0 (by omega)) (hf 1 (by omega)) (hf 2 (by omega)) (hf 3 (by omega))
    (hf 4 (by omega))).exec

end transacted

/-- Settles O42: the state CFG ends in is the one after its five transactions, whose history and images the lemmas
above give. -/
theorem cfgRunsFrequencySequence : Obligations.CfgRunsFrequencySequence := by
  unfold Obligations.CfgRunsFrequencySequence
  intro f p old s hr hp hf hold
  rw [← prescale_eq] at hp
  rw [← cfgOld_eq] at hold
  subst hp hold
  refine ⟨Nat.le_add_left 1 _, prescale_le hr, _, execCfg_ok f hr hf, ?_, cfgTransacted_history f hf, ?_, ?_, rfl,
    cfgTransacted_endsIn f true _ _ _⟩
  · simp [cfgTransacted]
  · intro hv
    obtain ⟨chip, oracle⟩ := cfgTransacted_mode1 f (hf 4 (by omega)) (hv 4 (by omega))
    exact ⟨chip, oracle, cfgTransacted_prescale_oracle f (hf 2 (by omega)) hv,
      cfgTransacted_prescale_chip f (hf 2 (by omega)) (hv 2 (by omega))⟩
  · intro a ha hp ho
    obtain ⟨oracle, register⟩ := cfgTransacted_kept f ha hp ho
    have ended := State.ended_registerKept (cfgTransacted f s) true .ok (BitVec.ofNat 16 (prescale f))
      ((cfgOld s).setWidth 16) a
    exact ⟨oracle.trans ended.toOracleKept, fun hk => (register hk).trans ended⟩

end Sys2Proof.Machine
end

section
/-! PROOFS. One step of the machine, said once, and what a command does on its way to its response as a list of
actions: what every action keeps, every command keeps. -/

namespace Sys2Proof.Machine

/-! ### The ways a step can go -/

section stepEquations
variable {s : State} {rest : List HostInput} {w : Word}

theorem step_of_nil (h : s.inbox = []) : step s = .next s := by simp [step, State.takeInput, h]

theorem step_of_reset (h : s.inbox = .reset :: rest) :
    step s = .next ({ s with inbox := rest } : State).resetBlock := by
  simp [step, State.takeInput, h]

theorem step_of_legal {i : Instr} (h : s.inbox = .command w :: rest) (hw : decode w = .ok i) :
    step s = exec i { s with inbox := rest } := by
  simp [step, State.takeInput, h, hw]

theorem step_of_illegal {e : Illegal} (h : s.inbox = .command w :: rest) (hw : decode w = .error e) :
    step s = .next (({ s with inbox := rest } : State).respond .illegalCommand 0 0) := by
  simp [step, State.takeInput, h, hw, State.illegalCommand]

end stepEquations

/-- Every way a step can go, with what the host presented: `Stepped s t` says that the step from `s` ends in `t`. -/
inductive Stepped (s : State) : State → Prop
  | waits (h : s.inbox = []) : Stepped s s
  | reset {rest} (h : s.inbox = .reset :: rest) : Stepped s ({ s with inbox := rest } : State).resetBlock
  | illegal {w rest e} (h : s.inbox = .command w :: rest) (hw : decode w = .error e) :
    Stepped s (({ s with inbox := rest } : State).respond .illegalCommand 0 0)
  | legal {w rest i t} (h : s.inbox = .command w :: rest) (hw : decode w = .ok i)
    (hr : Ran i { s with inbox := rest } t) : Stepped s t

theorem Stepped.step {s t : State} (h : Stepped s t) : step s = .next t := by
  cases h with
  | waits h => exact step_of_nil h
  | reset h => exact step_of_reset h
  | illegal h hw => exact step_of_illegal h hw
  | legal h hw hr => rw [step_of_legal h hw, hr.exec]

theorem stepped_total (s : State) : ∃ t, Stepped s t := by
  rcases h : s.inbox with _ | ⟨w | _, rest⟩
  · exact ⟨_, .waits h⟩
  · cases hw : decode w with
    | error e => exact ⟨_, .illegal h hw⟩
    | ok i =>
      obtain ⟨t, hr⟩ := ran_total i { s with inbox := rest }
      exact ⟨t, .legal h hw hr⟩
  · exact ⟨_, .reset h⟩

/-- The inversion of `step`. -/
theorem stepped_of_step {s t : State} (h : step s = .next t) : Stepped s t := by
  obtain ⟨t', ht⟩ := stepped_total s
  rw [ht.step] at h
  cases h
  exact ht

/-! ### What a command does before it answers -/

/-- One thing a command does on its way to its response. -/
inductive Act where
  | enter (p : Phase)
  | setConfigured (b : Bool)
  | wait (t : Nat)
  | sleep
  | read (addr n : Nat)
  | write (addr : Nat) (bytes : List Byte)

/-- The model's operation that an action is. -/
def Act.run : Act → State → State
  | .enter p, s => s.enter p
  | .setConfigured b, s => s.setConfigured b
  | .wait t, s => s.wait t
  | .sleep, s => s.throughSleep
  | .read addr n, s => s.afterRead addr n
  | .write addr bytes, s => s.afterWrite addr bytes

/-- What an action appends to H. -/
def Act.events : Act → State → List Event
  | .wait t, _ => [⟨.wait t, .ok⟩]
  | .read addr n, s => [⟨.busRead Config.chipAddr addr n (s.readBytes addr n), s.txOutcome⟩]
  | .write addr bytes, s => [⟨.busWrite Config.chipAddr addr bytes, s.txOutcome⟩]
  | .enter _, _ => []
  | .setConfigured _, _ => []
  | .sleep, _ => []

/-- How many bus transactions an action is. -/
def Act.transactions : Act → Nat
  | .read _ _ => 1
  | .write _ _ => 1
  | .enter _ => 0
  | .setConfigured _ => 0
  | .wait _ => 0
  | .sleep => 0

/-- The action's transaction is one of the bus: four bytes at most, in the 8-bit register space (rules R40 and R48). -/
def Act.inSpace : Act → Prop
  | .read addr n => addr + n ≤ 256
  | .write addr bytes => bytes.length ≤ 4 ∧ addr + bytes.length ≤ 256
  | .enter _ => True
  | .setConfigured _ => True
  | .wait _ => True
  | .sleep => True

/-- A state with other earlier responses and another history. -/
def State.withPast (s : State) (rs : List Response) (h : List Event) : State :=
  { s with responses := rs, history := h }

namespace Act
variable (a : Act) (s : State)

@[simp] theorem run_inbox : (a.run s).inbox = s.inbox := by cases a <;> rfl
@[simp] theorem run_responses : (a.run s).responses = s.responses := by cases a <;> rfl
theorem run_history : (a.run s).history = s.history ++ a.events s := by cases a <;> simp [run, events]
theorem run_outputEpoch : (a.run s).outputEpoch = s.outputEpoch + a.transactions := by cases a <;> rfl
theorem run_drawAt (k : Nat) : (a.run s).drawAt k = s.drawAt (k + a.transactions) := by
  cases a <;> simp [run, transactions]
theorem events_transactions : ((a.events s).filter Event.isTransaction).length = a.transactions := by cases a <;> rfl
theorem run_withPast (rs : List Response) (h : List Event) :
    a.run (s.withPast rs h) = (a.run s).withPast rs (h ++ a.events s) := by
  cases a with
  | enter _ | setConfigured _ | sleep => rw [events, List.append_nil]; rfl
  | wait _ | read _ _ | write _ _ => rfl

/-- No action reads CONFIGURED, and one that does not write it keeps it. -/
theorem run_setConfigured (b : Bool) : ∃ c, a.run (s.setConfigured b) = (a.run s).setConfigured c ∧
    (c = (a.run s).configured ∨ (c = b ∧ (a.run s).configured = s.configured)) := by
  cases a with
  | setConfigured b' => exact ⟨b', rfl, .inl rfl⟩
  | enter _ | wait _ | sleep | read _ _ | write _ _ => exact ⟨b, rfl, .inr ⟨rfl, rfl⟩⟩

theorem run_wf {a : Act} {s : State} (ha : a.inSpace) (hc : s.chip.wf = true) (hw : s.written.wf = true) :
    (a.run s).chip.wf = true ∧ (a.run s).written.wf = true := by
  cases a with
  | enter _ | setConfigured _ | wait _ => exact ⟨hc, hw⟩
  | sleep => exact ⟨State.chipThroughSleep_wf hc, hw⟩
  | read addr n => exact ⟨State.chipAfterRead_wf hc ha, State.writtenAfterRead_wf hw ha⟩
  | write addr bytes => exact ⟨State.chipAfterWrite_wf hc ha.1 ha.2, State.writtenAfterWrite_wf hw ha.2⟩

/-- An action whose transaction, if it is one, is not overlapped keeps the deterministic oracle at what H says. -/
theorem run_oracleFollows {a : Act} {s : State} (hs : s.OracleFollowsHistory)
    (h : ∀ k < a.transactions, (s.drawAt k).overlapped = false) : (a.run s).OracleFollowsHistory := by
  cases a with
  | enter _ | setConfigured _ | sleep => exact hs
  | wait t =>
    intro x
    rw [run_history, lastOkWrite_append]
    exact hs x
  | read addr n => exact State.afterRead_oracleFollows addr n hs (h 0 Nat.one_pos)
  | write addr bytes => exact State.afterWrite_oracleFollows addr bytes hs (h 0 Nat.one_pos)

end Act

/-! ### A list of actions -/

/-- The state after a list of actions. -/
def runActs : List Act → State → State
  | [], s => s
  | a :: as, s => runActs as (a.run s)

/-- What a list of actions appends to H. -/
def actsEvents : List Act → State → List Event
  | [], _ => []
  | a :: as, s => a.events s ++ actsEvents as (a.run s)

/-- How many bus transactions a list of actions performs. -/
def actsTransactions (as : List Act) : Nat := (as.map Act.transactions).sum

section runActs
variable (as : List Act) (s : State)

@[simp] theorem runActs_append (bs : List Act) : runActs (as ++ bs) s = runActs bs (runActs as s) := by
  induction as generalizing s with
  | nil => rfl
  | cons a as ih => exact ih _

theorem runActs_inbox : (runActs as s).inbox = s.inbox := by
  induction as generalizing s with
  | nil => rfl
  | cons a as ih => rw [runActs, ih, a.run_inbox]

theorem runActs_responses : (runActs as s).responses = s.responses := by
  induction as generalizing s with
  | nil => rfl
  | cons a as ih => rw [runActs, ih, a.run_responses]

theorem runActs_history : (runActs as s).history = s.history ++ actsEvents as s := by
  induction as generalizing s with
  | nil => simp [runActs, actsEvents]
  | cons a as ih => rw [runActs, ih, a.run_history, actsEvents, List.append_assoc]

theorem runActs_outputEpoch : (runActs as s).outputEpoch = s.outputEpoch + actsTransactions as := by
  induction as generalizing s with
  | nil => rfl
  | cons a as ih => rw [runActs, ih, a.run_outputEpoch, Nat.add_assoc]; rfl

theorem actsEvents_transactions : ((actsEvents as s).filter Event.isTransaction).length = actsTransactions as := by
  induction as generalizing s with
  | nil => rfl
  | cons a as ih => simp [actsEvents, actsTransactions, a.events_transactions, ih]

theorem runActs_withPast (rs : List Response) (h : List Event) :
    runActs as (s.withPast rs h) = (runActs as s).withPast rs (h ++ actsEvents as s) := by
  induction as generalizing s h with
  | nil => simp [runActs, actsEvents]
  | cons a as ih => rw [runActs, a.run_withPast, ih, List.append_assoc]; rfl

/-- Actions leave CONFIGURED as it was, or at a value that does not depend on it. -/
theorem runActs_setConfigured (b : Bool) : ∃ c, runActs as (s.setConfigured b) = (runActs as s).setConfigured c ∧
    (c = (runActs as s).configured ∨ (c = b ∧ (runActs as s).configured = s.configured)) := by
  induction as generalizing s b with
  | nil => exact ⟨b, rfl, .inr ⟨rfl, rfl⟩⟩
  | cons a as ih =>
    obtain ⟨c, hc, first⟩ := a.run_setConfigured s b
    obtain ⟨d, hd, rest⟩ := ih (a.run s) c
    refine ⟨d, by rw [runActs, hc, hd]; rfl, ?_⟩
    rcases rest with rest | ⟨rfl, kept⟩
    · exact .inl rest
    · exact first.imp (·.trans kept.symm) fun h => ⟨h.1, kept.trans h.2⟩

theorem runActs_wf {as : List Act} {s : State} (ha : ∀ a ∈ as, a.inSpace) (hc : s.chip.wf = true)
    (hw : s.written.wf = true) : (runActs as s).chip.wf = true ∧ (runActs as s).written.wf = true := by
  induction as generalizing s with
  | nil => exact ⟨hc, hw⟩
  | cons a as ih =>
    obtain ⟨first, rest⟩ := List.forall_mem_cons.mp ha
    obtain ⟨chip, written⟩ := Act.run_wf first hc hw
    exact ih rest chip written

theorem runActs_oracleFollows {as : List Act} {s : State} (hs : s.OracleFollowsHistory)
    (h : ∀ k < actsTransactions as, (s.drawAt k).overlapped = false) : (runActs as s).OracleFollowsHistory := by
  induction as generalizing s with
  | nil => exact hs
  | cons a as ih =>
    have count : actsTransactions (a :: as) = a.transactions + actsTransactions as := rfl
    refine ih (Act.run_oracleFollows hs fun k hk => h k (by omega)) fun k hk => ?_
    rw [a.run_drawAt]
    exact h _ (by omega)

end runActs

/-- The actions perform n transactions at most, each in the 8-bit register space. -/
structure ActsBounded (n : Nat) (as : List Act) : Prop where
  transactions : actsTransactions as ≤ n
  inSpace : ∀ a ∈ as, a.inSpace

theorem ActsBounded.nil : ActsBounded 0 [] := ⟨Nat.le_refl 0, List.forall_mem_nil _⟩

theorem ActsBounded.append {m n : Nat} {as bs : List Act} (h : ActsBounded m as) (h' : ActsBounded n bs) :
    ActsBounded (m + n) (as ++ bs) where
  transactions := by
    rw [actsTransactions, List.map_append, List.sum_append]
    exact Nat.add_le_add h.transactions h'.transactions
  inSpace := List.forall_mem_append.mpr ⟨h.inSpace, h'.inSpace⟩

theorem ActsBounded.mono {m n : Nat} {as : List Act} (h : ActsBounded m as) (hn : m ≤ n) : ActsBounded n as :=
  ⟨h.transactions.trans hn, h.inSpace⟩

/-! ### Every command is a list of actions and a response -/

/-- What a command does: its actions, and the response it ends with. -/
structure Script where
  acts : List Act
  status : Status
  r0 : Half
  r1 : Half

/-- The response of a script. -/
def Script.response (c : Script) : Response := ⟨c.status, c.r0, c.r1⟩

/-- The state in which a script ends. -/
def Script.finish (c : Script) (s : State) : State := (runActs c.acts s).respond c.status c.r0 c.r1

section finish
variable (c : Script) (s : State)

@[simp] theorem Script.finish_phase : (c.finish s).phase = .idle := rfl
@[simp] theorem Script.finish_inbox : (c.finish s).inbox = s.inbox := runActs_inbox c.acts s
@[simp] theorem Script.finish_responses : (c.finish s).responses = s.responses ++ [c.response] :=
  congrArg (· ++ [c.response]) (runActs_responses c.acts s)
@[simp] theorem Script.finish_history : (c.finish s).history = s.history ++ actsEvents c.acts s :=
  runActs_history c.acts s
@[simp] theorem Script.finish_outputEpoch : (c.finish s).outputEpoch = s.outputEpoch + actsTransactions c.acts :=
  runActs_outputEpoch c.acts s

theorem Script.finish_withPast (rs : List Response) (h : List Event) :
    c.finish (s.withPast rs h) =
      (c.finish s).withPast (rs ++ [c.response]) (h ++ actsEvents c.acts s) := by
  rw [Script.finish, runActs_withPast]
  rfl

theorem Script.finish_setConfigured (b : Bool) : ∃ d, c.finish (s.setConfigured b) = (c.finish s).setConfigured d ∧
    (d = (c.finish s).configured ∨ (d = b ∧ (c.finish s).configured = s.configured)) := by
  obtain ⟨d, hd, h⟩ := runActs_setConfigured c.acts s b
  exact ⟨d, by rw [Script.finish, hd]; rfl, h⟩

theorem Script.finish_oracleFollows {c : Script} {s : State} (hc : ActsBounded 5 c.acts)
    (hs : s.OracleFollowsHistory) (h : ∀ k < 5, (s.drawAt k).overlapped = false) :
    (c.finish s).OracleFollowsHistory :=
  runActs_oracleFollows (as := c.acts) hs fun k hk => h k (hk.trans_le hc.transactions)

end finish

/-- In the two states a command reads the same: CONFIGURED where it is gated by it, the bus's free values, and what the
deterministic oracle answers. -/
structure ReadsAlike (i : Instr) (s s' : State) : Prop where
  configured : needsConfigured i = true → s'.configured = s.configured
  drawAt : ∀ k, s'.drawAt k = s.drawAt k
  oracleQuad : ∀ a, s'.oracleQuad a = s.oracleQuad a

theorem ReadsAlike.refl (i : Instr) (s : State) : ReadsAlike i s s := ⟨fun _ => rfl, fun _ => rfl, fun _ => rfl⟩

theorem ReadsAlike.answerBytes {i : Instr} {s s' : State} (h : ReadsAlike i s s') (a : Nat) :
    s'.answerBytes s'.draw a = s.answerBytes s.draw a := by
  rw [State.answerBytes_eq, State.answerBytes_eq, h.oracleQuad, State.draw_eq, State.draw_eq, h.drawAt]

theorem ReadsAlike.cfgOld {i : Instr} {s s' : State} (h : ReadsAlike i s s') : cfgOld s' = cfgOld s :=
  congrArg Quad.b0 (h.answerBytes _)

/-- CFG's MODE1 read. -/
def readActs : List Act := [.enter .check, .enter .readMode, .read 0x00 1]

/-- CFG's sleep write. -/
def sleepActs (old : Byte) : List Act := [.sleep, .enter .sleep, .write 0x00 [sleepValue old]]

/-- CFG's PRESCALE write. -/
def prescaleActs (f : Nat) : List Act := [.enter .prescale, .write 0xFE [prescaleByte f]]

/-- CFG's restore write. -/
def restoreActs (old : Byte) : List Act := [.enter .restore, .write 0x00 [restoreValue old]]

/-- CFG's settle wait and auto-increment write. -/
def enableActs (old : Byte) : List Act :=
  [.enter .settle, .wait Config.tSettle, .enter .aiEnable, .write 0x00 [aiValue old]]

section cfgActs
variable (s : State) (old : Byte) (f : Nat)

theorem cfgRead_eq_runActs : cfgRead s = runActs readActs s := by unfold cfgRead; rfl
theorem cfgSlept_eq_runActs : cfgSlept old s = runActs (sleepActs old) s := by unfold cfgSlept; rfl
theorem cfgPrescaled_eq_runActs : cfgPrescaled f s = runActs (prescaleActs f) s := by unfold cfgPrescaled; rfl
theorem cfgRestored_eq_runActs : cfgRestored old s = runActs (restoreActs old) s := by unfold cfgRestored; rfl
theorem cfgEnabled_eq_runActs : cfgEnabled old s = runActs (enableActs old) s := by unfold cfgEnabled; rfl
theorem cfgFaulted_eq_runActs : cfgFaulted s = (runActs [.setConfigured false] s).respond .busFault 0 0 := by
  unfold cfgFaulted; rfl

end cfgActs

theorem chaddr_block_le (ch : Channel) : chaddr ch + 4 ≤ 0x46 := by
  have := ch.isLt
  simp only [chaddr, Config.chBase, Config.chStride]
  omega

section bounds
variable (old : Byte) (f : Nat)

theorem setdActs_bounded (ch : Channel) (p : RegPair) : ActsBounded 1 [.write (chaddr ch) p.block] :=
  ⟨Nat.le_refl 1, List.forall_mem_singleton.mpr ⟨Nat.le_refl 4, (chaddr_block_le ch).trans (by decide)⟩⟩

theorem getdActs_bounded (ch : Channel) : ActsBounded 1 [.read (chaddr ch) 4] :=
  ⟨Nat.le_refl 1, List.forall_mem_singleton.mpr ((chaddr_block_le ch).trans (by decide))⟩

theorem readActs_bounded : ActsBounded 1 readActs := ⟨Nat.le_refl 1, by simp [readActs, Act.inSpace]⟩
theorem sleepActs_bounded : ActsBounded 1 (sleepActs old) := ⟨Nat.le_refl 1, by simp [sleepActs, Act.inSpace]⟩
theorem prescaleActs_bounded : ActsBounded 1 (prescaleActs f) := ⟨Nat.le_refl 1, by simp [prescaleActs, Act.inSpace]⟩
theorem restoreActs_bounded : ActsBounded 1 (restoreActs old) := ⟨Nat.le_refl 1, by simp [restoreActs, Act.inSpace]⟩
theorem enableActs_bounded : ActsBounded 1 (enableActs old) := ⟨Nat.le_refl 1, by simp [enableActs, Act.inSpace]⟩
theorem setConfigured_bounded (b : Bool) : ActsBounded 0 [.setConfigured b] :=
  ⟨Nat.le_refl 0, List.forall_mem_singleton.mpr trivial⟩

end bounds

theorem ReadsAlike.fault {i : Instr} {s s' : State} {k : Nat} {b : Bool} (h : ReadsAlike i s s')
    (hf : (s.drawAt k).fault = b) : (s'.drawAt k).fault = b := by rw [h.drawAt, hf]

/-- `c` is what the command does and answers, in all states in which it reads the same as in `s`. -/
structure IsScriptOf (c : Script) (i : Instr) (s : State) : Prop where
  bounded : ActsBounded 5 c.acts
  exec : ∀ s', ReadsAlike i s s' → exec i s' = .next (c.finish s')

/-- The script of a command without a bus transaction. -/
theorem isScriptOf_of_respond {i : Instr} {s : State} {e : Status} {r0 r1 : Half}
    (h : ∀ s', ReadsAlike i s s' → exec i s' = .next (s'.respond e r0 r1)) : IsScriptOf ⟨[], e, r0, r1⟩ i s :=
  ⟨ActsBounded.nil.mono (by decide), h⟩

theorem exists_script_setd (ch : Channel) (inv : Bool) (v : Int) (s : State) :
    ∃ c, IsScriptOf c (.setd ch inv v) s := by
  have bounded (p) : ActsBounded 5 [.write (chaddr ch) (RegPair.block p)] := (setdActs_bounded ch p).mono (by decide)
  obtain ⟨t, ht⟩ := ran_total (.setd ch inv v) s
  cases ht with
  | setdOut h => exact ⟨_, isScriptOf_of_respond fun _ _ => (Ran.setdOut h).exec⟩
  | setdUnconfigured h hc =>
    exact ⟨_, isScriptOf_of_respond fun _ k => (Ran.setdUnconfigured h ((k.configured rfl).trans hc)).exec⟩
  | setdFault h hc h0 =>
    exact ⟨⟨_, .busFault, 0, 0⟩, bounded _, fun _ k =>
      (Ran.setdFault h ((k.configured rfl).trans hc) (k.fault h0)).exec⟩
  | @setd _ _ _ _ p h hc h0 =>
    exact ⟨⟨_, .ok, p.onHalf, p.offHalf⟩, bounded _, fun _ k =>
      (Ran.setd h ((k.configured rfl).trans hc) (k.fault h0)).exec⟩

theorem exists_script_getd (ch : Channel) (inv : Bool) (s : State) : ∃ c, IsScriptOf c (.getd ch inv) s := by
  have bounded : ActsBounded 5 [.read (chaddr ch) 4] := (getdActs_bounded ch).mono (by decide)
  obtain ⟨t, ht⟩ := ran_total (.getd ch inv) s
  cases ht with
  | getdUnconfigured hc =>
    exact ⟨_, isScriptOf_of_respond fun _ k => (Ran.getdUnconfigured ((k.configured rfl).trans hc)).exec⟩
  | getdFault hc h0 =>
    exact ⟨⟨_, .busFault, 0, 0⟩, bounded, fun _ k =>
      (Ran.getdFault ((k.configured rfl).trans hc) (k.fault h0)).exec⟩
  | @getdOther _ _ _ q hc h0 hq h =>
    exact ⟨⟨_, .decodeError, onOf q, offOf q⟩, bounded, fun _ k =>
      (Ran.getdOther ((k.configured rfl).trans hc) (k.fault h0) ((k.answerBytes _).trans hq) h).exec⟩
  | @getd _ _ _ _ v hc h0 hq h =>
    exact ⟨⟨_, .ok, BitVec.ofNat 16 v, 0⟩, bounded, fun _ k =>
      (Ran.getd ((k.configured rfl).trans hc) (k.fault h0) ((k.answerBytes _).trans hq) h).exec⟩

/-- CFG's actions up to the transaction that faults, or all of them. -/
theorem exists_script_cfg (f : Nat) (s : State) : ∃ c, IsScriptOf c (.cfg f) s := by
  have slept := readActs_bounded.append (sleepActs_bounded (cfgOld s))
  have prescaled := slept.append (prescaleActs_bounded f)
  have restored := prescaled.append (restoreActs_bounded (cfgOld s))
  have enabled := restored.append (enableActs_bounded (cfgOld s))
  obtain ⟨t, ht⟩ := ran_total (.cfg f) s
  cases ht with
  | cfgOut h =>
    exact ⟨⟨[.enter .check], .rangeError, 0, 0⟩, ⟨Nat.zero_le 5, by simp [Act.inSpace]⟩, fun _ _ =>
      (Ran.cfgOut h).exec⟩
  | cfgReadFault h h0 =>
    refine ⟨⟨_, .busFault, 0, 0⟩, readActs_bounded.mono (by decide), fun _ k => ?_⟩
    rw [(Ran.cfgReadFault h (k.fault h0)).exec, cfgRead_eq_runActs]
    rfl
  | cfgSleepFault h h0 h1 =>
    refine ⟨⟨_, .busFault, 0, 0⟩, (slept.append (setConfigured_bounded false)).mono (by decide), fun _ k => ?_⟩
    rw [(Ran.cfgSleepFault h (k.fault h0) (k.fault h1)).exec, k.cfgOld]
    simp only [Script.finish, runActs_append, ← cfgRead_eq_runActs, ← cfgSlept_eq_runActs, cfgFaulted_eq_runActs]
  | cfgPrescaleFault h h0 h1 h2 =>
    refine ⟨⟨_, .busFault, 0, 0⟩, (prescaled.append (setConfigured_bounded false)).mono (by decide), fun _ k => ?_⟩
    rw [(Ran.cfgPrescaleFault h (k.fault h0) (k.fault h1) (k.fault h2)).exec, k.cfgOld]
    simp only [Script.finish, runActs_append, ← cfgRead_eq_runActs, ← cfgSlept_eq_runActs, ← cfgPrescaled_eq_runActs,
      cfgFaulted_eq_runActs]
  | cfgRestoreFault h h0 h1 h2 h3 =>
    refine ⟨⟨_, .busFault, 0, 0⟩, (restored.append (setConfigured_bounded false)).mono (by decide), fun _ k => ?_⟩
    rw [(Ran.cfgRestoreFault h (k.fault h0) (k.fault h1) (k.fault h2) (k.fault h3)).exec, k.cfgOld]
    simp only [Script.finish, runActs_append, ← cfgRead_eq_runActs, ← cfgSlept_eq_runActs, ← cfgPrescaled_eq_runActs,
      ← cfgRestored_eq_runActs, cfgFaulted_eq_runActs]
  | cfgEnableFault h h0 h1 h2 h3 h4 =>
    refine ⟨⟨_, .busFault, 0, 0⟩, enabled.append (setConfigured_bounded false), fun _ k => ?_⟩
    rw [(Ran.cfgEnableFault h (k.fault h0) (k.fault h1) (k.fault h2) (k.fault h3) (k.fault h4)).exec, k.cfgOld]
    simp only [Script.finish, runActs_append, ← cfgRead_eq_runActs, ← cfgSlept_eq_runActs, ← cfgPrescaled_eq_runActs,
      ← cfgRestored_eq_runActs, ← cfgEnabled_eq_runActs, cfgFaulted_eq_runActs]
  | cfg h h0 h1 h2 h3 h4 =>
    refine ⟨⟨_, .ok, BitVec.ofNat 16 (prescale f), (cfgOld s).setWidth 16⟩,
      enabled.append (setConfigured_bounded true), fun _ k => ?_⟩
    rw [(Ran.cfg h (k.fault h0) (k.fault h1) (k.fault h2) (k.fault h3) (k.fault h4)).exec, k.cfgOld]
    simp only [Script.finish, runActs_append, ← cfgRead_eq_runActs, ← cfgSlept_eq_runActs, ← cfgPrescaled_eq_runActs,
      ← cfgRestored_eq_runActs, ← cfgEnabled_eq_runActs]
    rfl

/-- What every command does and answers is a script. -/
theorem exists_script (i : Instr) (s : State) : ∃ c, IsScriptOf c i s := by
  cases i with
  | enc inv v =>
    obtain ⟨t, ht⟩ := ran_total (.enc inv v) s
    cases ht with
    | encOut h => exact ⟨_, isScriptOf_of_respond fun _ _ => (Ran.encOut h).exec⟩
    | enc h => exact ⟨_, isScriptOf_of_respond fun _ _ => (Ran.enc h).exec⟩
  | dec inv on off =>
    obtain ⟨t, ht⟩ := ran_total (.dec inv on off) s
    cases ht with
    | decOther h => exact ⟨_, isScriptOf_of_respond fun _ _ => (Ran.decOther h).exec⟩
    | dec h => exact ⟨_, isScriptOf_of_respond fun _ _ => (Ran.dec h).exec⟩
  | setd ch inv v => exact exists_script_setd ch inv v s
  | getd ch inv => exact exists_script_getd ch inv s
  | cfg f => exact exists_script_cfg f s

/-- The inversion of `exec` by scripts. -/
theorem script_of_exec {i : Instr} {s t : State} (h : exec i s = .next t) :
    ∃ c, IsScriptOf c i s ∧ t = c.finish s := by
  obtain ⟨c, hc⟩ := exists_script i s
  have := hc.exec s (ReadsAlike.refl i s)
  rw [h] at this
  cases this
  exact ⟨c, hc, rfl⟩

end Sys2Proof.Machine
end

section
/-! PROOFS. The invariant (O45, O46): H of every command is one that the bus monitor accepts, and both images stay
canonical; and the deterministic oracle at the last ok write of H (O51). -/

namespace Sys2Proof.Machine

/-! ### The bus monitor on the events of whole commands -/

theorem monitorOf_append (h evs : List Event) : monitorOf (h ++ evs) = evs.foldl Monitor.observe (monitorOf h) :=
  List.foldl_append

theorem monitorOf_concat (h : List Event) (e : Event) : monitorOf (h ++ [e]) = (monitorOf h).observe e :=
  monitorOf_append h [e]

theorem isBlockAddr_chaddr : ∀ ch : Channel, isBlockAddr (chaddr ch) = true := by decide

theorem chaddr_ne_mode1 (ch : Channel) : chaddr ch ≠ Config.mode1Addr := by
  simp [chaddr]

/-- A pair the encoder gives is one the bus monitor accepts (rules R67 and R83). -/
theorem imageBlock_block {v : Int} {inv : Bool} {p : RegPair} (h : encodeDuty v inv = some p) :
    imageBlock p.block = true := by
  have range := encodeDuty_range h
  have pair := h
  rw [encodeDuty_eq inv range, Option.some.injEq] at pair
  show (decodeDuty (half (p.onHalf.extractLsb' 0 8) (p.onHalf.extractLsb' 8 8)).toNat
    (half (p.offHalf.extractLsb' 0 8) (p.offHalf.extractLsb' 8 8)).toNat false).isSome = true
  rw [half_le16, half_le16, onHalf_toNat h, offHalf_toNat h, ← pair,
    decodeDuty_pairOf (complementIf_le (by omega))]
  rfl

section monitor
variable {s : State} {b c : Bool} {old : Byte}

/-- A block write of an encoder's pair, ok or faulted, is a whole command. -/
theorem monitorOf_blockWrite {v : Int} {inv : Bool} {p : RegPair} (ch : Channel) (hp : encodeDuty v inv = some p)
    (h : monitorOf s.history = ⟨.rest, c⟩) :
    monitorOf (s.afterWrite (chaddr ch) p.block).history = ⟨.rest, c⟩ := by
  rw [State.afterWrite_history, monitorOf_concat, h]
  simp [Monitor.observe, Monitor.observeAtRest, isBlockAddr_chaddr, imageBlock_block hp]

/-- A block read, ok or faulted, is a whole command. -/
theorem monitorOf_blockRead (ch : Channel) (h : monitorOf s.history = ⟨.rest, c⟩) :
    monitorOf (s.afterRead (chaddr ch) 4).history = ⟨.rest, c⟩ := by
  have hne := chaddr_ne_mode1 ch
  rw [State.afterRead_history, monitorOf_concat, h]
  cases hf : (s.drawAt 0).fault with
  | true =>
    rw [State.txOutcome_fault hf, State.readBytes_fault _ _ hf]
    simp [Monitor.observe, Monitor.observeAtRest, isBlockAddr_chaddr]
  | false =>
    rw [State.txOutcome_ok hf, State.readBytes_ok _ _ hf]
    simp [Monitor.observe, Monitor.observeAtRest, isBlockAddr_chaddr, hne, Quad.toList]

/-- A faulted MODE1 read ends CFG; an ok one opens the sequence (rule R95). -/
theorem monitorOf_cfgRead (h : monitorOf s.history = ⟨.rest, c⟩) (hf : (s.drawAt 0).fault = b) :
    monitorOf (cfgRead s).history = if b then ⟨.rest, c⟩ else ⟨.modeRead (cfgOld s), c⟩ := by
  rw [cfgRead_history, monitorOf_concat, h, hf]
  cases b <;> simp [Monitor.observe, Monitor.observeAtRest]

theorem monitorOf_cfgSlept (h : monitorOf s.history = ⟨.modeRead old, c⟩) (hf : (s.drawAt 0).fault = b) :
    monitorOf (cfgSlept old s).history = if b then ⟨.rest, false⟩ else ⟨.asleep old, c⟩ := by
  rw [cfgSlept_history, monitorOf_concat, h, hf]
  cases b <;> simp [Monitor.observe, Monitor.expectWrite]

theorem monitorOf_cfgPrescaled (f : Nat) (h : monitorOf s.history = ⟨.asleep old, c⟩)
    (hf : (s.drawAt 0).fault = b) :
    monitorOf (cfgPrescaled f s).history = if b then ⟨.rest, false⟩ else ⟨.prescaled old, c⟩ := by
  rw [cfgPrescaled_history, monitorOf_concat, h, hf]
  cases b <;> simp [Monitor.observe, Monitor.expectWrite]

theorem monitorOf_cfgRestored (h : monitorOf s.history = ⟨.prescaled old, c⟩) (hf : (s.drawAt 0).fault = b) :
    monitorOf (cfgRestored old s).history = if b then ⟨.rest, false⟩ else ⟨.restored old, c⟩ := by
  rw [cfgRestored_history, monitorOf_concat, h, hf]
  cases b <;> simp [Monitor.observe, Monitor.expectWrite]

theorem monitorOf_cfgEnabled (h : monitorOf s.history = ⟨.restored old, c⟩) (hf : (s.drawAt 0).fault = b) :
    monitorOf (cfgEnabled old s).history = ⟨.rest, !b⟩ := by
  rw [cfgEnabled_history, monitorOf_append, h, hf]
  cases b <;> simp [Monitor.observe, Monitor.expectWrite]

end monitor

/-- Every command leaves the bus monitor between commands, with CONFIGURED as the events say (rule R22). -/
theorem Ran.monitorOf_history {i : Instr} {s t : State} (hr : Ran i s t)
    (h : monitorOf s.history = ⟨.rest, s.configured⟩) : monitorOf t.history = ⟨.rest, t.configured⟩ := by
  cases hr with
  | encOut _ | enc _ | decOther _ | dec _ | setdOut _ | setdUnconfigured _ _ | getdUnconfigured _ | cfgOut _ => exact h
  | setdFault hp _ _ | setd hp _ _ => exact monitorOf_blockWrite _ hp h
  | getdFault _ _ | getdOther _ _ _ _ | getd _ _ _ _ => exact monitorOf_blockRead _ h
  | cfgReadFault _ h0 =>
    rw [State.respond_configured, cfgRead_configured]
    exact monitorOf_cfgRead h h0
  | cfgSleepFault _ h0 h1 =>
    rw [cfgFaulted_history, cfgFaulted_configured]
    exact monitorOf_cfgSlept (monitorOf_cfgRead h h0) (by simpa using h1)
  | @cfgPrescaleFault f _ _ h0 h1 h2 =>
    have slept := monitorOf_cfgSlept (b := false) (monitorOf_cfgRead h h0) (by simpa using h1)
    rw [cfgFaulted_history, cfgFaulted_configured]
    exact monitorOf_cfgPrescaled f slept (by simpa using h2)
  | @cfgRestoreFault f _ _ h0 h1 h2 h3 =>
    have slept := monitorOf_cfgSlept (b := false) (monitorOf_cfgRead h h0) (by simpa using h1)
    have prescaled := monitorOf_cfgPrescaled (b := false) f slept (by simpa using h2)
    rw [cfgFaulted_history, cfgFaulted_configured]
    exact monitorOf_cfgRestored prescaled (by simpa using h3)
  | @cfgEnableFault f _ _ h0 h1 h2 h3 h4 =>
    have slept := monitorOf_cfgSlept (b := false) (monitorOf_cfgRead h h0) (by simpa using h1)
    have prescaled := monitorOf_cfgPrescaled (b := false) f slept (by simpa using h2)
    have restored := monitorOf_cfgRestored (b := false) prescaled (by simpa using h3)
    rw [cfgFaulted_history, cfgFaulted_configured]
    exact monitorOf_cfgEnabled (b := true) restored (by simpa using h4)
  | @cfg f _ _ h0 h1 h2 h3 h4 =>
    have slept := monitorOf_cfgSlept (b := false) (monitorOf_cfgRead h h0) (by simpa using h1)
    have prescaled := monitorOf_cfgPrescaled (b := false) f slept (by simpa using h2)
    have restored := monitorOf_cfgRestored (b := false) prescaled (by simpa using h3)
    exact monitorOf_cfgEnabled (b := false) restored (by simpa using h4)

/-! ### The invariant -/

theorem Ran.inv {i : Instr} {s t : State} (hr : Ran i s t) (hs : s.Inv) : t.Inv := by
  obtain ⟨c, hc, rfl⟩ := script_of_exec hr.exec
  obtain ⟨image, oracle⟩ := runActs_wf hc.bounded.inSpace hs.image hs.oracle
  exact ⟨rfl, image, oracle, hr.monitorOf_history hs.events⟩

/-- A reset clears H, CONFIGURED and both images. -/
theorem State.resetBlock_inv (s : State) : s.resetBlock.Inv := ⟨rfl, rfl, rfl, rfl⟩

/-- Taking an input and answering the host keeps the invariant. -/
theorem State.respond_inv {s : State} (hs : s.Inv) (rest : List HostInput) (e : Status) (r0 r1 : Half) :
    (({ s with inbox := rest } : State).respond e r0 r1).Inv := ⟨rfl, hs.image, hs.oracle, hs.events⟩

/-- Settles O46: each command's events take the bus monitor from between commands to between commands, and each of its
actions keeps both images canonical. -/
theorem stepKeepsInvariant : Obligations.StepKeepsInvariant := by
  unfold Obligations.StepKeepsInvariant
  intro s t hs h
  cases stepped_of_step h with
  | waits _ => exact hs
  | reset _ => exact State.resetBlock_inv _
  | illegal _ _ => exact State.respond_inv hs _ _ _ _
  | legal _ _ hr => exact hr.inv ⟨hs.idle, hs.image, hs.oracle, hs.events⟩

/-- Settles O45: nothing is listed and H is empty. -/
theorem invariantAtReset : Obligations.InvariantAtReset := by
  unfold Obligations.InvariantAtReset
  exact ⟨⟨rfl, rfl, rfl, rfl⟩, ⟨List.forall_mem_nil _, List.forall_mem_nil _⟩, fun _ => rfl⟩

/-! ### The deterministic oracle and H -/

/-- Settles O51: each action whose transaction is not overlapped keeps the oracle at the last ok write of H. -/
theorem stepKeepsOracleAtLastOkWrite : Obligations.StepKeepsOracleAtLastOkWrite := by
  unfold Obligations.StepKeepsOracleAtLastOkWrite
  intro s t hs hv h
  cases stepped_of_step h with
  | waits _ => exact hs
  | reset _ => exact fun _ => rfl
  | illegal _ _ => exact hs
  | legal _ _ hr =>
    obtain ⟨c, hc, rfl⟩ := script_of_exec hr.exec
    exact Script.finish_oracleFollows hc.bounded hs hv

end Sys2Proof.Machine
end

section
/-! PROOFS. Steps, reset, responses and CONFIGURED (O9, O12 to O17, O49, O54), and the register image as data (O31,
O48). -/

namespace Sys2Proof.Machine

/-! ### One step -/

/-- Settles O9: the step's equation for a legal word. -/
theorem stepRunsDecodedCommand : Obligations.StepRunsDecodedCommand := by
  unfold Obligations.StepRunsDecodedCommand
  intro s w rest i h hw
  exact step_of_legal h hw

/-- Settles O12: no register is listed after reset, so each reads as its draw. -/
theorem resetLeavesBlockIdle : Obligations.ResetLeavesBlockIdle := by
  unfold Obligations.ResetLeavesBlockIdle
  exact ⟨rfl, rfl, rfl, rfl, fun _ => ⟨rfl, rfl, rfl⟩⟩

/-- Settles O13: a reset empties both images and takes the next draw of the chip's bytes and of the outputs. -/
theorem resetInputReturnsBlockToReset : Obligations.ResetInputReturnsBlockToReset := by
  unfold Obligations.ResetInputReturnsBlockToReset
  intro s rest h
  exact ⟨_, step_of_reset h, rfl, rfl, rfl, rfl, rfl, rfl, rfl, Nat.succ_ne_self _, Nat.succ_ne_self _,
    fun _ => ⟨rfl, rfl⟩⟩

/-- Settles O14: every end a step can have is idle, and it has taken the input. -/
theorem everyStepAnswersNext : Obligations.EveryStepAnswersNext := by
  unfold Obligations.EveryStepAnswersNext
  intro s
  obtain ⟨t, ht⟩ := stepped_total s
  refine ⟨t, ht.step, ?_⟩
  cases ht with
  | waits h => exact ⟨id, fun hne => absurd h hne⟩
  | reset h => exact ⟨fun _ => rfl, fun _ => ⟨rfl, by rw [h]; rfl⟩⟩
  | illegal h _ => exact ⟨fun _ => rfl, fun _ => ⟨rfl, by rw [h]; rfl⟩⟩
  | legal h _ hr =>
    obtain ⟨c, -, rfl⟩ := script_of_exec hr.exec
    exact ⟨fun _ => rfl, fun _ => ⟨rfl, by rw [h, c.finish_inbox]; rfl⟩⟩

/-! ### Responses and H -/

/-- Settles O15: a script reads no earlier response and not H. -/
theorem responseHandedOverNotKept : Obligations.ResponseHandedOverNotKept := by
  unfold Obligations.ResponseHandedOverNotKept
  intro i s t h
  obtain ⟨c, hc, rfl⟩ := script_of_exec h
  refine ⟨c.response, actsEvents c.acts s, c.finish_responses s, c.finish_history s, fun rs h => ?_⟩
  rw [← State.withPast, hc.exec (s.withPast rs h) ⟨fun _ => rfl, fun _ => rfl, fun _ => rfl⟩, c.finish_withPast]
  rfl

/-- A presented word, legal or not, is taken and answered with one response. -/
theorem step_of_word {s : State} {w : Word} {rest : List HostInput} (h : s.inbox = .command w :: rest) :
    ∃ t r evs, step s = .next t ∧ t.inbox = rest ∧ t.responses = s.responses ++ [r] ∧
      t.history = s.history ++ evs := by
  cases hw : decode w with
  | error e => exact ⟨_, _, [], step_of_illegal h hw, rfl, rfl, (List.append_nil _).symm⟩
  | ok i =>
    obtain ⟨c, hc⟩ := exists_script i { s with inbox := rest }
    exact ⟨_, c.response, _, (step_of_legal h hw).trans (hc.exec _ (ReadsAlike.refl _ _)), c.finish_inbox _,
      c.finish_responses _, c.finish_history _⟩

/-- Settles O49, by induction on the words presented. -/
theorem runEndsWithOneResponsePerWord : Obligations.RunEndsWithOneResponsePerWord := by
  unfold Obligations.RunEndsWithOneResponsePerWord
  intro ws
  induction ws with
  | nil =>
    intro s h
    exact ⟨s, core_run_zero s, h, [], [], (List.append_nil _).symm, rfl, (List.append_nil _).symm⟩
  | cons w ws ih =>
    intro s h
    obtain ⟨t, r, evs, hstep, hinbox, hresponses, hhistory⟩ := step_of_word h
    obtain ⟨u, hrun, hempty, rs, evs', hrs, hlength, hevs⟩ := ih t hinbox
    refine ⟨u, (core_run_succ _ hstep).trans hrun, hempty, r :: rs, evs ++ evs', ?_, congrArg (· + 1) hlength, ?_⟩
    · exact hrs.trans (by simp [State.observation, hresponses])
    · exact hevs.trans (by simp [State.observation, hhistory])

/-- Settles O54: an action takes one draw of the outputs for each transaction it appends. -/
theorem channelOutputsUnspecifiedAfterTransactions : Obligations.ChannelOutputsUnspecifiedAfterTransactions := by
  unfold Obligations.ChannelOutputsUnspecifiedAfterTransactions
  intro i s t h
  obtain ⟨c, -, rfl⟩ := script_of_exec h
  refine ⟨actsEvents c.acts s, c.finish_history s, ?_⟩
  rw [actsEvents_transactions]
  exact ⟨c.finish_outputEpoch s, fun ch => by rw [State.output, c.finish_outputEpoch]⟩

/-! ### CONFIGURED -/

/-- Settles O17: a script of ENC, DEC or CFG does not read CONFIGURED. -/
theorem onlySetdAndGetdReadConfigured : Obligations.OnlySetdAndGetdReadConfigured := by
  unfold Obligations.OnlySetdAndGetdReadConfigured
  intro i s t b hi h
  obtain ⟨c, hc, rfl⟩ := script_of_exec h
  obtain ⟨d, hd, hcases⟩ := c.finish_setConfigured s b
  have alike : ReadsAlike i s (s.setConfigured b) := ⟨fun hn => by simp [hi] at hn, fun _ => rfl, fun _ => rfl⟩
  exact ⟨d, (hc.exec _ alike).trans (congrArg _ hd), hcases⟩

/-- A CFG that ran from `s` and changed CONFIGURED ended in `t`: OK, or BusFault after a faulted write (rule R22). -/
def ChangedByCfg (s t : State) : Prop :=
  ∃ r, t.responses = s.responses ++ [r] ∧
    ((r.status = .ok ∧ t.configured = true) ∨ (r.status = .busFault ∧ t.configured = false ∧
      ∃ pre addr b, t.history = pre ++ [⟨.busWrite Config.chipAddr addr [b], .fault⟩] ∧
        (addr = Config.mode1Addr ∨ addr = Config.prescaleAddr)))

theorem changedByCfg_of_faultedWrite {s u : State} {pre : List Event} {addr : Nat} {b : Byte} {o : TxOutcome}
    (hr : u.responses = s.responses) (hh : u.history = pre ++ [⟨.busWrite Config.chipAddr addr [b], o⟩])
    (ho : o = .fault) (ha : addr = 0x00 ∨ addr = 0xFE) : ChangedByCfg s (cfgFaulted u) := by
  subst ho
  exact ⟨⟨.busFault, 0, 0⟩, by rw [cfgFaulted_responses, hr],
    .inr ⟨rfl, cfgFaulted_configured u, pre, addr, b, (cfgFaulted_history u).trans hh, ha⟩⟩

/-- Only a CFG changes CONFIGURED, by completing or by a write that faults. -/
theorem Ran.changedByCfg {i : Instr} {s t : State} (hr : Ran i s t) (hne : t.configured ≠ s.configured) :
    ∃ f, i = .cfg f ∧ ChangedByCfg s t := by
  cases hr with
  | encOut _ | enc _ | decOther _ | dec _ | setdOut _ | setdUnconfigured _ _ | setdFault _ _ _ | setd _ _ _
  | getdUnconfigured _ | getdFault _ _ | getdOther _ _ _ _ | getd _ _ _ _ | cfgOut _ => exact absurd rfl hne
  | cfgReadFault _ _ => exact absurd (cfgRead_configured s) hne
  | @cfgSleepFault f _ _ _ h1 =>
    exact ⟨f, rfl, changedByCfg_of_faultedWrite (by simp) (cfgSlept_history _ _) (by simp [h1]) (.inl rfl)⟩
  | @cfgPrescaleFault f _ _ _ _ h2 =>
    exact ⟨f, rfl, changedByCfg_of_faultedWrite (by simp) (cfgPrescaled_history _ _) (by simp [h2]) (.inr rfl)⟩
  | @cfgRestoreFault f _ _ _ _ _ h3 =>
    exact ⟨f, rfl, changedByCfg_of_faultedWrite (by simp) (cfgRestored_history _ _) (by simp [h3]) (.inl rfl)⟩
  | @cfgEnableFault f _ _ _ _ _ _ h4 =>
    exact ⟨f, rfl, changedByCfg_of_faultedWrite (by simp)
      ((cfgEnabled_history _ _).trans (List.append_cons _ _ _)) (by simp [h4]) (.inl rfl)⟩
  | @cfg f _ _ _ _ _ _ _ =>
    exact ⟨f, rfl, ⟨.ok, BitVec.ofNat 16 (prescale f), (cfgOld s).setWidth 16⟩, by simp, .inl ⟨rfl, rfl⟩⟩

/-- Settles O16: of the ways a step can go only a reset and a CFG change CONFIGURED. -/
theorem onlyResetAndCfgWriteConfigured : Obligations.OnlyResetAndCfgWriteConfigured := by
  unfold Obligations.OnlyResetAndCfgWriteConfigured
  intro s t h hne
  cases stepped_of_step h with
  | waits _ => exact absurd rfl hne
  | reset hin => exact .inl ⟨_, hin, rfl⟩
  | illegal _ _ => exact absurd rfl hne
  | legal hin hw hr =>
    obtain ⟨f, rfl, r, hend⟩ := hr.changedByCfg hne
    exact .inr ⟨_, _, f, r, hin, hw, hend⟩

/-! ### The register image -/

/-- Rule R44: the low byte OR the high byte shifted left by 8. -/
theorem half_eq_or (lo hi : Byte) : half lo hi = lo.setWidth 16 ||| hi.setWidth 16 <<< 8 := by
  apply BitVec.eq_of_getLsbD_eq
  intro k hk
  rw [half, BitVec.getLsbD_append]
  by_cases h : k < 8
  · simp [h, hk]
  · simp [h, hk, BitVec.getLsbD_of_ge lo k (by omega)]

/-- Settles O31: each of a channel's values is two bytes of its block put together. -/
theorem channelValuesSeenInChip : Obligations.ChannelValuesSeenInChip := by
  unfold Obligations.ChannelValuesSeenInChip
  intro s ch
  exact ⟨half_eq_or _ _, half_eq_or _ _⟩

theorem Memory.risingFrom_cons {lo a : Nat} {b : Byte} {m : Memory} :
    Memory.risingFrom lo ((a, b) :: m) = true ↔ lo ≤ a ∧ a < 256 ∧ m.risingFrom (a + 1) = true := by
  simp [Memory.risingFrom, and_assoc]

theorem Memory.byte?_cons_self (a : Nat) (b : Byte) (m : Memory) : Memory.byte? ((a, b) :: m) a = some b := if_pos rfl

theorem Memory.byte?_cons_ne {a x : Nat} (b : Byte) (m : Memory) (h : x ≠ a) :
    Memory.byte? ((a, b) :: m) x = m.byte? x := if_neg h

/-- An image whose addresses rise from `lo` lists no byte below it. -/
theorem Memory.byte?_eq_none_of_lt {m : Memory} {lo x : Nat} (h : m.risingFrom lo = true) (hx : x < lo) :
    m.byte? x = none := by
  induction m generalizing lo with
  | nil => rfl
  | cons c rest ih =>
    obtain ⟨hlo, -, hrest⟩ := Memory.risingFrom_cons.mp h
    rw [Memory.byte?_cons_ne _ _ (by omega), ih hrest (by omega)]

/-- An image lists nothing below the first address of another one that lists the same bytes. -/
theorem Memory.first_le_first {m m' : Memory} {a a' : Nat} {b b' : Byte} (h' : m'.risingFrom (a' + 1) = true)
    (heq : ∀ x, Memory.byte? ((a, b) :: m) x = Memory.byte? ((a', b') :: m') x) : a' ≤ a := by
  by_contra hlt
  have listed := heq a
  rw [Memory.byte?_cons_self, Memory.byte?_cons_ne _ _ (by omega), Memory.byte?_eq_none_of_lt h' (by omega)] at listed
  cases listed

/-- Two rising images that list the same bytes are the same list. -/
theorem Memory.eq_of_byte?_eq {m m' : Memory} {lo lo' : Nat} (h : m.risingFrom lo = true)
    (h' : m'.risingFrom lo' = true) (heq : ∀ x, m.byte? x = m'.byte? x) : m = m' := by
  induction m generalizing m' lo lo' with
  | nil =>
    cases m' with
    | nil => rfl
    | cons c' _ => exact absurd ((heq c'.1).trans (Memory.byte?_cons_self _ _ _)) (by simp)
  | cons c rest ih =>
    cases m' with
    | nil => exact absurd ((heq c.1).symm.trans (Memory.byte?_cons_self _ _ _)) (by simp)
    | cons c' rest' =>
      obtain ⟨-, -, hrest⟩ := Memory.risingFrom_cons.mp h
      obtain ⟨-, -, hrest'⟩ := Memory.risingFrom_cons.mp h'
      have haddr : c.1 = c'.1 :=
        Nat.le_antisymm (Memory.first_le_first hrest fun x => (heq x).symm) (Memory.first_le_first hrest' heq)
      have hbyte : some c.2 = some c'.2 := by
        have first := heq c.1
        rwa [Memory.byte?_cons_self, haddr, Memory.byte?_cons_self] at first
      have heqRest : ∀ x, Memory.byte? rest x = Memory.byte? rest' x := fun x => by
        by_cases hx : x = c.1
        · rw [Memory.byte?_eq_none_of_lt hrest (by omega), Memory.byte?_eq_none_of_lt hrest' (by omega)]
        · have later := heq x
          rwa [Memory.byte?_cons_ne _ _ hx, Memory.byte?_cons_ne _ _ (haddr ▸ hx)] at later
      rw [Prod.ext haddr (Option.some.inj hbyte), ih hrest hrest' heqRest]

/-- Settles O48: the canonical form is strictly rising. -/
theorem canonicalImagesAreEqual : Obligations.CanonicalImagesAreEqual := by
  unfold Obligations.CanonicalImagesAreEqual
  intro m m' h h' heq
  exact Memory.eq_of_byte?_eq h h' heq

end Sys2Proof.Machine
end

section
/-! PROOFS. CFG where its MODE1 read faults (O43), and where one of its four writes does (O44): what the chip holds and
what the deterministic oracle answers after each of the writes. -/

namespace Sys2Proof.Machine

/-! ### The MODE1 read -/

/-- Answering the host changes no register. -/
theorem State.respond_registerKept (s : State) (e : Status) (r0 r1 : Half) (a : Nat) :
    RegisterKept s (s.respond e r0 r1) a := ⟨⟨rfl, rfl⟩, rfl, rfl⟩

theorem cfgRead_endsIn (s : State) (e : Status) (r0 r1 : Half) : EndsIn s 1 ((cfgRead s).respond e r0 r1) where
  idle := rfl
  inbox := cfgRead_inbox s
  chipEpoch := cfgRead_chipEpoch s
  outputEpoch := cfgRead_outputEpoch s
  drawAt := cfgRead_drawAt s

/-- Settles O43: the state CFG ends in is the one after its MODE1 read. -/
theorem cfgReadFault : Obligations.CfgReadFault := by
  unfold Obligations.CfgReadFault
  intro f s hr h0
  rw [State.draw_eq] at h0
  refine ⟨_, (Ran.cfgReadFault (by omega) h0).exec, by simp, by simp [h0], fun hv => ?_, fun a ha ho => ?_,
    cfgRead_configured s, cfgRead_endsIn s _ _ _⟩
  · exact ⟨(cfgRead_written s).trans (State.writtenAfterRead_eq 0 1 hv), fun ho =>
      (cfgRead_chip s).trans (State.chipAfterRead_eq 0 1 hv ho)⟩
  · exact (cfgRead_registerKept ha ho).trans (State.respond_registerKept _ _ _ _ a)

/-! ### CFG's writes, one by one -/

/-- CFG's state once its first n writes are done; after none of them, as the sleep that the first one brings has left
the chip. -/
def cfgWrites (f : Nat) (s : State) : Nat → State
  | 0 => (cfgRead s).throughSleep
  | 1 => cfgSlept (cfgOld s) (cfgRead s)
  | 2 => cfgPrescaled f (cfgSlept (cfgOld s) (cfgRead s))
  | 3 => cfgRestored (cfgOld s) (cfgPrescaled f (cfgSlept (cfgOld s) (cfgRead s)))
  | _ => cfgTransacted f s

/-- The register that CFG's write number n goes to, counted from 0 (rule R95). -/
def cfgWriteAddr (n : Nat) : Nat := if n = 1 then 0xFE else 0x00

/-- The byte that CFG's write number n sends (rules R92 and R95). -/
def cfgWriteByte (f : Nat) (old : Byte) : Nat → Byte
  | 0 => sleepValue old
  | 1 => prescaleByte f
  | 2 => restoreValue old
  | _ => aiValue old

/-- `t` is `s` with one byte written to a register, as far as the chip and the bus go. -/
structure WroteRegister (s t : State) (addr : Nat) (b : Byte) : Prop where
  chipEpoch : t.chipEpoch = s.chipEpoch
  chip : t.chip = s.chipAfterWrite addr [b]
  written : t.written = s.writtenAfterWrite addr [b]
  outputEpoch : t.outputEpoch = s.outputEpoch + 1
  inbox : t.inbox = s.inbox
  responses : t.responses = s.responses
  drawAt : ∀ k, t.drawAt k = s.drawAt (k + 1)

theorem cfgWrites_wrote (f : Nat) (s : State) {n : Nat} (hn : n < 4) :
    WroteRegister (cfgWrites f s n) (cfgWrites f s (n + 1)) (cfgWriteAddr n) (cfgWriteByte f (cfgOld s) n) := by
  match n, hn with
  | 0, _ => constructor <;> simp [cfgWrites, cfgWriteAddr, cfgWriteByte]
  | 1, _ => constructor <;> simp [cfgWrites, cfgWriteAddr, cfgWriteByte]
  | 2, _ => constructor <;> simp [cfgWrites, cfgWriteAddr, cfgWriteByte]
  | 3, _ => constructor <;> simp [cfgWrites, cfgTransacted, cfgWriteAddr, cfgWriteByte]

namespace WroteRegister
variable {s t : State} {addr a : Nat} {b : Byte} (w : WroteRegister s t addr b)
include w

theorem registerKept (ha : a ≠ addr) (ho : s.OthersAvoid 1 a) : RegisterKept s t a :=
  registerKept_of_write w.chipEpoch w.chip w.written ha ho

theorem oracleKept (ha : a ≠ addr) (hv : (s.drawAt 0).overlapped = false) : OracleKept s t a :=
  oracleKept_of_exclusive_write w.chipEpoch w.written ha hv

theorem chipByte (hf : (s.drawAt 0).fault = false) (hv : (s.drawAt 0).overlapped = false) : t.chipByte addr = b :=
  chipByte_of_write w.chip hf hv

theorem oracleByte (hf : (s.drawAt 0).fault = false) (hv : (s.drawAt 0).overlapped = false) :
    t.oracleByte addr = b :=
  oracleByte_of_write w.written hf hv

/-- After a faulted write the register holds any byte (rule R52). -/
theorem chipByte_of_fault (hf : (s.drawAt 0).fault = true) : t.chipByte addr = (s.drawAt 0).left.b0 := by
  refine State.chipByte_of_byte? ?_
  rw [w.chip, State.chipAfterWrite, State.draw_eq, landedBytes_fault _ hf]
  exact Memory.byte?_set_self _ _ _

/-- A faulted write counts for nothing with the deterministic oracle (rule R51). -/
theorem oracleKept_of_fault (hf : (s.drawAt 0).fault = true) (hv : (s.drawAt 0).overlapped = false) :
    OracleKept s t a := by
  refine oracleKept_of w.chipEpoch ?_
  rw [w.written, State.writtenAfterWrite_eq _ _ hv, hf]
  rfl

end WroteRegister

section writes
variable {f : Nat} {s : State} {n : Nat}

theorem cfgWrites_drawAt (hn : n ≤ 4) (k : Nat) : (cfgWrites f s n).drawAt k = s.drawAt (k + (n + 1)) := by
  induction n generalizing k with
  | zero => simp [cfgWrites]
  | succ n ih => rw [(cfgWrites_wrote f s hn).drawAt, ih (by omega), Nat.add_right_comm, Nat.add_assoc k]

/-- However a CFG ends after its first n writes, it has used up their free values, and the read's, and no more. -/
theorem cfgWrites_endsIn (hn : n ≤ 4) : EndsIn s (n + 1) (cfgFaulted (cfgWrites f s n)) := by
  suffices h : (cfgWrites f s n).inbox = s.inbox ∧ (cfgWrites f s n).chipEpoch = s.chipEpoch ∧
      (cfgWrites f s n).outputEpoch = s.outputEpoch + (n + 1) by
    obtain ⟨inbox, chipEpoch, outputEpoch⟩ := h
    exact ⟨cfgFaulted_phase _, (cfgFaulted_inbox _).trans inbox, (cfgFaulted_chipEpoch _).trans chipEpoch,
      (cfgFaulted_outputEpoch _).trans outputEpoch, fun k => (cfgFaulted_drawAt _ k).trans (cfgWrites_drawAt hn k)⟩
  induction n with
  | zero => exact ⟨cfgRead_inbox s, cfgRead_chipEpoch s, cfgRead_outputEpoch s⟩
  | succ n ih =>
    have wrote := cfgWrites_wrote f s hn
    obtain ⟨inbox, chipEpoch, outputEpoch⟩ := ih (by omega)
    exact ⟨wrote.inbox.trans inbox, wrote.chipEpoch.trans chipEpoch,
      wrote.outputEpoch.trans (congrArg (· + 1) outputEpoch)⟩

theorem cfgWrites_responses (hn : n ≤ 4) : (cfgWrites f s n).responses = s.responses := by
  induction n with
  | zero => exact cfgRead_responses s
  | succ n ih => exact (cfgWrites_wrote f s hn).responses.trans (ih (by omega))

/-- The MODE1 read and the sleep keep every register but MODE1 that no other master reaches and the chip does not lose
(rule R126). -/
theorem cfgWrites_zero_registerKept {a : Nat} (ha : a ≠ 0x00) (ho : s.OthersAvoid 1 a) (hk : s.SleepKeeps 1 a) :
    RegisterKept s (cfgWrites f s 0) a :=
  (cfgRead_registerKept ha ho).trans
    (State.throughSleep_registerKept ((State.sleepKeeps_congr (cfgRead_drawAt s 0) a).mpr hk))

/-- CFG's first n writes keep every register but MODE1 and PRESCALE that no other master reaches: for the
deterministic oracle always, in the chip where it keeps the register across the sleep (rule R126). -/
theorem cfgWrites_kept {a : Nat} (hn : n ≤ 4) (ha : a ≠ 0x00) (hp : a ≠ 0xFE) (ho : s.OthersAvoid (n + 1) a) :
    OracleKept s (cfgWrites f s n) a ∧ (s.SleepKeeps 1 a → RegisterKept s (cfgWrites f s n) a) := by
  induction n with
  | zero =>
    exact ⟨(cfgRead_registerKept ha ho).toOracleKept.trans (State.throughSleep_oracleKept _ a),
      cfgWrites_zero_registerKept ha ho⟩
  | succ n ih =>
    obtain ⟨oracle, register⟩ := ih (by omega) (State.othersAvoid_mono ho (by omega))
    have wrote := (cfgWrites_wrote f s hn).registerKept (a := a) (by rw [cfgWriteAddr]; split <;> assumption)
      (State.othersAvoid_later ho (cfgWrites_drawAt (by omega)))
    exact ⟨oracle.trans wrote.toOracleKept, fun hk => (register hk).trans wrote⟩

/-- With bus exclusion kept, CFG's MODE1 read and the sleep change nothing for the deterministic oracle (rule R51). -/
theorem cfgWrites_zero_oracleKept (hv : (s.drawAt 0).overlapped = false) (a : Nat) :
    OracleKept s (cfgWrites f s 0) a := by
  refine oracleKept_of (cfgRead_chipEpoch s) ?_
  rw [cfgWrites, State.throughSleep_written, cfgRead_written, State.writtenAfterRead_eq _ _ hv]

/-- The free values of CFG's write number n. -/
theorem cfgWrites_draw_zero (hn : n ≤ 4) : (cfgWrites f s n).drawAt 0 = s.drawAt (n + 1) := by
  rw [cfgWrites_drawAt hn, Nat.zero_add]

/-- What the deterministic oracle answers for MODE1 and PRESCALE after CFG's first n writes, all ok and none
overlapped. -/
theorem cfgWrites_oracle (hn : n ≤ 3) (hf : ∀ j ≤ n, (s.drawAt j).fault = false)
    (hv : ∀ j ≤ n, (s.drawAt j).overlapped = false) :
    (cfgWrites f s n).oracleByte 0x00 =
      (if n = 0 then s.oracleByte 0x00 else if n = 3 then cfgOld s else sleepValue (cfgOld s)) ∧
    (cfgWrites f s n).oracleByte 0xFE = if n ≤ 1 then s.oracleByte 0xFE else prescaleByte f := by
  induction n with
  | zero =>
    have kept := cfgWrites_zero_oracleKept (f := f) (hv 0 (by omega))
    exact ⟨(kept 0x00).answers, (kept 0xFE).answers⟩
  | succ n ih =>
    obtain ⟨mode1, prescale⟩ := ih (by omega) (fun j hj => hf j (by omega)) (fun j hj => hv j (by omega))
    have wrote := cfgWrites_wrote f s (n := n) (by omega)
    have draw := cfgWrites_draw_zero (f := f) (s := s) (n := n) (by omega)
    have ok : ((cfgWrites f s n).drawAt 0).fault = false := draw ▸ hf (n + 1) (by omega)
    have exclusive : ((cfgWrites f s n).drawAt 0).overlapped = false := draw ▸ hv (n + 1) (by omega)
    match n, hn with
    | 0, _ => exact ⟨wrote.oracleByte ok exclusive, (wrote.oracleKept (by decide) exclusive).answers.trans prescale⟩
    | 1, _ => exact ⟨(wrote.oracleKept (by decide) exclusive).answers.trans mode1, wrote.oracleByte ok exclusive⟩
    | 2, _ => exact ⟨wrote.oracleByte ok exclusive, (wrote.oracleKept (by decide) exclusive).answers.trans prescale⟩

/-- CFG's write number n keeps a register other than its own where no other master reaches the chip. -/
theorem cfgWrites_next_registerKept {a : Nat} (hn : n < 4) (ha : a ≠ cfgWriteAddr n)
    (ho : (s.drawAt (n + 1)).others = []) : RegisterKept (cfgWrites f s n) (cfgWrites f s (n + 1)) a := by
  refine (cfgWrites_wrote f s hn).registerKept ha (State.othersAvoid_of_none (fun k hk => ?_) a)
  rw [Nat.lt_one_iff.mp hk, cfgWrites_draw_zero (by omega), ho]

/-- PRESCALE holds what CFG wrote, where no other master reaches the chip afterwards. -/
theorem cfgWrites_prescale_chip (h2 : 2 ≤ n) (hn : n ≤ 4) (hf : (s.drawAt 2).fault = false)
    (hv : (s.drawAt 2).overlapped = false) (ho : ∀ j ≤ n, (s.drawAt j).others = []) :
    (cfgWrites f s n).chipByte 0xFE = prescaleByte f := by
  induction n, h2 using Nat.le_induction with
  | base =>
    have draw := cfgWrites_draw_zero (f := f) (s := s) (n := 1) (by omega)
    exact (cfgWrites_wrote f s (n := 1) (by omega)).chipByte (draw ▸ hf) (draw ▸ hv)
  | succ n h2 ih =>
    have addr : 0xFE ≠ cfgWriteAddr n := by rw [cfgWriteAddr, if_neg (by omega)]; decide
    exact (cfgWrites_next_registerKept hn addr (ho _ (by omega))).holds.trans
      (ih (by omega) fun j hj => ho j (by omega))

end writes

/-! ### The end of a CFG one of whose writes faults -/

theorem cfgFaulted_registerKept (s : State) (a : Nat) : RegisterKept s (cfgFaulted s) a := by
  unfold cfgFaulted
  exact State.ended_registerKept s false .busFault 0 0 a

/-- What CFG's transactions and its wait append to H, in the order of rule R95. -/
def cfgKinds (f : Nat) (old : Byte) : List EventKind :=
  [.busRead Config.chipAddr 0x00 1 [old], .busWrite Config.chipAddr 0x00 [sleepValue old],
    .busWrite Config.chipAddr 0xFE [prescaleByte f], .busWrite Config.chipAddr 0x00 [restoreValue old],
    .wait Config.tSettle, .busWrite Config.chipAddr 0x00 [aiValue old]]

section faulted
variable {f k : Nat} {s : State} (hk : k < 4) (h1 : (s.drawAt (k + 1)).fault = true)
include hk h1

/-- The faulted write's register holds any byte (rule R52). -/
theorem cfgWrites_chipByte_of_fault :
    (cfgWrites f s (k + 1)).chipByte (cfgWriteAddr k) = (s.drawAt (k + 1)).left.b0 := by
  have draw := cfgWrites_draw_zero (f := f) (s := s) (n := k) (by omega)
  rw [(cfgWrites_wrote f s hk).chipByte_of_fault (draw ▸ h1), draw]

/-- The deterministic oracle answers as before the faulted write (rule R51). -/
theorem cfgWrites_oracleKept_of_fault (hv : (s.drawAt (k + 1)).overlapped = false) (a : Nat) :
    OracleKept (cfgWrites f s k) (cfgWrites f s (k + 1)) a := by
  have draw := cfgWrites_draw_zero (f := f) (s := s) (n := k) (by omega)
  exact (cfgWrites_wrote f s hk).oracleKept_of_fault (draw ▸ h1) (draw ▸ hv)

variable (hf : ∀ j ≤ k, (s.drawAt j).fault = false)
include hf

theorem exec_cfg_of_writeFault (hr : 24 ≤ f) : exec (.cfg f) s = .next (cfgFaulted (cfgWrites f s (k + 1))) := by
  have low : ¬f ≤ 23 := by omega
  match k, hk with
  | 0, _ => exact (Ran.cfgSleepFault low (hf 0 (by omega)) h1).exec
  | 1, _ => exact (Ran.cfgPrescaleFault low (hf 0 (by omega)) (hf 1 (by omega)) h1).exec
  | 2, _ => exact (Ran.cfgRestoreFault low (hf 0 (by omega)) (hf 1 (by omega)) (hf 2 (by omega)) h1).exec
  | 3, _ =>
    exact (Ran.cfgEnableFault low (hf 0 (by omega)) (hf 1 (by omega)) (hf 2 (by omega)) (hf 3 (by omega)) h1).exec

/-- The events up to the faulted write are ok, and no event follows it. -/
theorem cfgWrites_history_of_fault :
    ∃ last, (cfgKinds f (cfgOld s))[if k = 3 then 5 else k + 1]? = some last ∧
      (cfgWrites f s (k + 1)).history = s.history ++
        ((cfgKinds f (cfgOld s)).take (if k = 3 then 5 else k + 1)).map (fun e => ⟨e, .ok⟩) ++ [⟨last, .fault⟩] := by
  have h0 := hf 0 (by omega)
  match k, hk with
  | 0, _ => exact ⟨_, rfl, by simp [cfgWrites, cfgKinds, h0, h1]⟩
  | 1, _ => exact ⟨_, rfl, by simp [cfgWrites, cfgKinds, hf, h1]⟩
  | 2, _ => exact ⟨_, rfl, by simp [cfgWrites, cfgKinds, hf, h1]⟩
  | 3, _ => exact ⟨_, rfl, by simp [cfgWrites, cfgTransacted, cfgKinds, hf, h1]⟩

end faulted

/-- Settles O44: the state CFG ends in is the one after its faulted write, whose images the lemmas above give. -/
theorem cfgWriteFaultEndsSequence : Obligations.CfgWriteFaultEndsSequence := by
  unfold Obligations.CfgWriteFaultEndsSequence
  intro f p k old s kinds n hr hk hp hf h1 hold hkinds hn
  rw [← prescale_eq] at hp
  rw [← cfgOld_eq] at hold
  subst hp hold hkinds hn
  obtain ⟨last, hlast, hhistory⟩ := cfgWrites_history_of_fault (f := f) hk h1 hf
  have ended := cfgFaulted_registerKept (cfgWrites f s (k + 1))
  refine ⟨_, last, exec_cfg_of_writeFault hk h1 hf hr, ?_, hlast, (cfgFaulted_history _).trans hhistory, ?_, ?_,
    cfgFaulted_configured _, cfgWrites_endsIn hk⟩
  · rw [cfgFaulted_responses, cfgWrites_responses hk]
  · intro hv
    have left := cfgWrites_chipByte_of_fault (f := f) hk h1
    have oracle (a) := (cfgWrites_oracleKept_of_fault (f := f) hk h1 (hv _ (by omega)) a).trans (ended a).toOracleKept
    obtain ⟨mode1, prescale⟩ := cfgWrites_oracle (f := f) (by omega) hf fun j hj => hv j (by omega)
    refine ⟨fun h => ?_, fun h => ?_, (oracle 0x00).answers.trans mode1, (oracle 0xFE).answers.trans prescale,
      fun ho => ⟨?_, ?_, fun h => ?_⟩⟩
    · rw [cfgWriteAddr, if_neg h] at left
      exact (ended 0x00).holds.trans left
    · rw [cfgWriteAddr, if_pos h] at left
      exact (ended 0xFE).holds.trans left
    · rintro rfl
      have draw := cfgWrites_draw_zero (f := f) (s := s) (n := 0) (by omega)
      have slept := (cfgWrites_wrote f s (n := 0) (by omega)).chipByte (draw ▸ hf 1 (by omega)) (draw ▸ hv 1 (by omega))
      have kept := cfgWrites_next_registerKept (f := f) (n := 1) (a := 0x00) hk (by decide) (ho 2 (by omega))
      exact ((ended 0x00).holds.trans kept.holds).trans slept
    · rintro rfl hsleep
      have asleep := cfgWrites_zero_registerKept (f := f) (a := 0xFE) (by decide)
        (State.othersAvoid_of_none (fun j hj => ho j (by omega)) _) hsleep
      have kept := cfgWrites_next_registerKept (f := f) (n := 0) (a := 0xFE) hk (by decide) (ho 1 (by omega))
      exact ((ended 0xFE).holds.trans kept.holds).trans asleep.holds
    · exact (ended 0xFE).holds.trans
        (cfgWrites_prescale_chip (by omega) (by omega) (hf 2 h) (hv 2 (by omega)) ho)
  · intro a ha hp ho
    obtain ⟨oracle, register⟩ := cfgWrites_kept (f := f) (n := k + 1) hk ha hp ho
    exact ⟨oracle.trans (ended a).toOracleKept, fun hs => (register hs).trans (ended a)⟩

end Sys2Proof.Machine
end

section
/-! PROOFS. What a command has done when it answers: no transaction, one of a channel's block, or a part of CFG's
sequence. Then the frame of every command (O20), the addresses of its events (O21) and of the images (O52), and what a
step keeps of a channel's block (O53). -/

namespace Sys2Proof.Machine

/-! ### What a command has done when it answers -/

/-- The command's work before its answer: `Performed i s n u` says that `i`, begun in `s`, has performed `n` bus
transactions that leave `u`. -/
inductive Performed : Instr → State → Nat → State → Prop
  | nothing {i s} : Performed i s 0 s
  | blockWrite {ch inv v s} (p : RegPair) : Performed (.setd ch inv v) s 1 (s.afterWrite (chaddr ch) p.block)
  | blockRead {ch inv s} : Performed (.getd ch inv) s 1 (s.afterRead (chaddr ch) 4)
  | modeRead {f s} : Performed (.cfg f) s 1 (cfgRead s)
  | sequence {f s n} (hn : n < 4) : Performed (.cfg f) s (n + 2) (cfgWrites f s (n + 1))

/-- `t` is `u` but for what an answer writes: the responses, the phase and CONFIGURED. -/
structure Ended (u t : State) : Prop where
  idle : t.phase = .idle
  chip : t.chip = u.chip
  written : t.written = u.written
  history : t.history = u.history
  inbox : t.inbox = u.inbox
  chipEpoch : t.chipEpoch = u.chipEpoch
  outputEpoch : t.outputEpoch = u.outputEpoch
  drawAt : ∀ k, t.drawAt k = u.drawAt k

theorem ended_respond (u : State) (e : Status) (r0 r1 : Half) : Ended u (u.respond e r0 r1) :=
  ⟨rfl, rfl, rfl, rfl, rfl, rfl, rfl, fun _ => rfl⟩

theorem ended_setConfigured_respond (u : State) (c : Bool) (e : Status) (r0 r1 : Half) :
    Ended u ((u.setConfigured c).respond e r0 r1) :=
  ⟨rfl, rfl, rfl, rfl, rfl, rfl, rfl, fun _ => rfl⟩

theorem ended_cfgFaulted (u : State) : Ended u (cfgFaulted u) := by
  unfold cfgFaulted
  exact ended_setConfigured_respond u false .busFault 0 0

theorem Ended.registerKept {u t : State} (h : Ended u t) (a : Nat) : RegisterKept u t a :=
  registerKept_of h.chipEpoch (congrArg (·.byte? a) h.chip) (congrArg (·.byte? a) h.written)

/-- Every command ends so: it has performed its transactions up to the first that faults, and answers. -/
theorem Ran.performed {i : Instr} {s t : State} (hr : Ran i s t) : ∃ n u, Performed i s n u ∧ Ended u t := by
  cases hr with
  | encOut _ | enc _ | decOther _ | dec _ | setdOut _ | setdUnconfigured _ _ | getdUnconfigured _ =>
    exact ⟨0, s, .nothing, ended_respond s _ _ _⟩
  | cfgOut _ => exact ⟨0, s, .nothing, ⟨rfl, rfl, rfl, rfl, rfl, rfl, rfl, fun _ => rfl⟩⟩
  | setdFault _ _ _ | setd _ _ _ => exact ⟨1, _, .blockWrite _, ended_respond _ _ _ _⟩
  | getdFault _ _ | getdOther _ _ _ _ | getd _ _ _ _ => exact ⟨1, _, .blockRead, ended_respond _ _ _ _⟩
  | cfgReadFault _ _ => exact ⟨1, _, .modeRead, ended_respond _ _ _ _⟩
  | cfgSleepFault _ _ _ => exact ⟨2, _, .sequence (n := 0) (by omega), ended_cfgFaulted _⟩
  | cfgPrescaleFault _ _ _ _ => exact ⟨3, _, .sequence (n := 1) (by omega), ended_cfgFaulted _⟩
  | cfgRestoreFault _ _ _ _ _ => exact ⟨4, _, .sequence (n := 2) (by omega), ended_cfgFaulted _⟩
  | cfgEnableFault _ _ _ _ _ _ => exact ⟨5, _, .sequence (n := 3) (by omega), ended_cfgFaulted _⟩
  | cfg _ _ _ _ _ _ => exact ⟨5, _, .sequence (n := 3) (by omega), ended_setConfigured_respond _ _ _ _ _⟩

section performed
variable {i : Instr} {s u t : State} {n : Nat}

/-- A command performs five transactions at most. -/
theorem Performed.le_five (h : Performed i s n u) : n ≤ 5 := by
  cases h <;> omega

theorem Ended.endsIn (h : Ended u t) (inbox : u.inbox = s.inbox) (chipEpoch : u.chipEpoch = s.chipEpoch)
    (outputEpoch : u.outputEpoch = s.outputEpoch + n) (drawAt : ∀ k, u.drawAt k = s.drawAt (k + n)) : EndsIn s n t :=
  ⟨h.idle, h.inbox.trans inbox, h.chipEpoch.trans chipEpoch, h.outputEpoch.trans outputEpoch,
    fun k => (h.drawAt k).trans (drawAt k)⟩

theorem Performed.endsIn (h : Performed i s n u) (ht : Ended u t) : EndsIn s n t := by
  cases h with
  | nothing => exact ht.endsIn rfl rfl rfl fun _ => rfl
  | blockWrite p => exact ht.endsIn rfl rfl rfl fun k => State.afterWrite_drawAt s k _ _
  | blockRead => exact ht.endsIn rfl rfl rfl fun k => State.afterRead_drawAt s k _ _
  | modeRead =>
    exact ht.endsIn (cfgRead_inbox s) (cfgRead_chipEpoch s) (cfgRead_outputEpoch s) (cfgRead_drawAt s)
  | @sequence f _ n hn =>
    have faulted : EndsIn s (n + 2) _ := cfgWrites_endsIn (f := f) (s := s) hn
    have ended := ended_cfgFaulted (cfgWrites f s (n + 1))
    exact ht.endsIn (ended.inbox.symm.trans faulted.inbox) (ended.chipEpoch.symm.trans faulted.chipEpoch)
      (ended.outputEpoch.symm.trans faulted.outputEpoch) fun k => (ended.drawAt k).symm.trans (faulted.drawAt k)

end performed

/-! ### The frame of one block transaction -/

section transaction
variable {s : State} {addr n a : Nat} {bytes : List Byte}

theorem State.afterWrite_registerKept (hb : bytes.length ≤ 4) (ha : a < addr ∨ addr + bytes.length ≤ a)
    (ho : s.OthersAvoid 1 a) : RegisterKept s (s.afterWrite addr bytes) a :=
  registerKept_of rfl (State.chipAfterWrite_outside hb ha ho) (State.writtenAfterWrite_outside ha ho)

theorem State.afterRead_registerKept (ha : s.draw.overlapped = true → a < addr ∨ addr + n ≤ a)
    (ho : s.OthersAvoid 1 a) : RegisterKept s (s.afterRead addr n) a :=
  registerKept_of rfl (State.chipAfterRead_outside ha ho) (State.writtenAfterRead_outside ha ho)

/-- With bus exclusion kept, a write changes what the deterministic oracle answers in its own range only (rule R51). -/
theorem State.afterWrite_oracleKept (ha : a < addr ∨ addr + bytes.length ≤ a)
    (hv : (s.drawAt 0).overlapped = false) : OracleKept s (s.afterWrite addr bytes) a := by
  refine oracleKept_of rfl ?_
  rw [State.afterWrite_written, State.writtenAfterWrite_eq _ _ hv]
  split
  · rfl
  · exact Memory.byte?_setBlock_outside _ _ _ _ ha

/-- With bus exclusion kept, a read changes nothing the deterministic oracle answers (rules R50 and R51). -/
theorem State.afterRead_oracleKept (addr n a : Nat) (hv : (s.drawAt 0).overlapped = false) :
    OracleKept s (s.afterRead addr n) a :=
  oracleKept_of rfl (congrArg (·.byte? a) (State.writtenAfterRead_eq addr n hv))

end transaction

/-! ### The frame of every command -/

theorem outside_block {ch : Channel} {a : Nat} (h : ¬(chaddr ch ≤ a ∧ a < chaddr ch + 4)) :
    a < chaddr ch ∨ chaddr ch + 4 ≤ a := by omega

/-- A command keeps every register that it does not store to and that no other master reaches: for the deterministic
oracle always, in the chip where it keeps the register across a CFG's sleep (rule R126). -/
theorem Performed.kept {i : Instr} {s u : State} {n a : Nat} (h : Performed i s n u) (hs : ¬storesAt i s a)
    (ho : s.OthersAvoid n a) :
    OracleKept s u a ∧ (((∃ f, i = .cfg f) → s.SleepKeeps 1 a) → RegisterKept s u a) := by
  have always {t : State} {sleeps : Prop} (k : RegisterKept s t a) :
      OracleKept s t a ∧ (sleeps → RegisterKept s t a) := ⟨k.toOracleKept, fun _ => k⟩
  cases h with
  | nothing => exact always ⟨⟨rfl, rfl⟩, rfl, rfl⟩
  | blockWrite p =>
    exact always (State.afterWrite_registerKept (bytes := p.block) (Nat.le_refl 4) (outside_block hs) ho)
  | blockRead => exact always (State.afterRead_registerKept (fun hv => outside_block fun ha => hs ⟨hv, ha⟩) ho)
  | modeRead => exact always (cfgRead_registerKept (fun ha => hs (.inl ha)) ho)
  | @sequence f _ n hn =>
    obtain ⟨oracle, register⟩ := cfgWrites_kept (f := f) (n := n + 1) hn (fun ha => hs (.inl ha))
      (fun ha => hs (.inr ha)) ho
    exact ⟨oracle, fun hk => register (hk ⟨f, rfl⟩)⟩

/-- Settles O20: the frame of what the command has performed, and that its answer changes no register. -/
theorem commandLeavesTheRestAlone : Obligations.CommandLeavesTheRestAlone := by
  unfold Obligations.CommandLeavesTheRestAlone
  intro i s t h
  have hr := ran_of_exec h
  obtain ⟨n, u, hu, ht⟩ := hr.performed
  obtain ⟨c, -, rfl⟩ := script_of_exec h
  refine ⟨⟨n, hu.endsIn ht, hu.le_five, fun a hs ho => ?_⟩, fun hi => ?_, ⟨_, c.finish_history s⟩,
    ⟨_, c.finish_responses s⟩⟩
  · obtain ⟨oracle, register⟩ := hu.kept hs ho
    exact ⟨oracle.trans (ht.registerKept a).toOracleKept, fun hk => (register hk).trans (ht.registerKept a)⟩
  · by_contra hne
    obtain ⟨f, hf, -⟩ := hr.changedByCfg hne
    exact hi f hf

/-! ### The addresses of a command's events -/

theorem ownedAddr_mode1 : ownedAddr 0x00 = true := rfl
theorem ownedAddr_prescale : ownedAddr 0xFE = true := rfl

theorem chaddr_block_ge (ch : Channel) : 0x06 ≤ chaddr ch := Nat.le_add_right 0x06 _

/-- A channel's block is owned (rules R41 and R90). -/
theorem ownedAddr_block (ch : Channel) {k : Nat} (hk : k < 4) : ownedAddr (chaddr ch + k) = true := by
  have := chaddr_block_ge ch
  have := chaddr_block_le ch
  simp only [ownedAddr, Bool.or_eq_true, Bool.and_eq_true, decide_eq_true_eq]
  omega

theorem ownedAddr_cfgWriteAddr (n : Nat) : ownedAddr (cfgWriteAddr n) = true := by
  unfold cfgWriteAddr
  split <;> rfl

/-- The event is a transaction with CHIP_ADDR inside the owned addresses, or the settle wait (rules R42 and R43). -/
def Event.InOwned (e : Event) : Prop :=
  match e.kind with
  | .busWrite device addr bytes =>
    device = Config.chipAddr ∧ bytes ≠ [] ∧ ∀ k < bytes.length, ownedAddr (addr + k) = true
  | .busRead device addr n _ => device = Config.chipAddr ∧ 0 < n ∧ ∀ k < n, ownedAddr (addr + k) = true
  | .wait t => t = Config.tSettle

/-- The event of a register read or write at an owned address. -/
theorem Event.inOwned_registerWrite {addr : Nat} (b : Byte) (o : TxOutcome) (ha : ownedAddr addr = true) :
    Event.InOwned ⟨.busWrite Config.chipAddr addr [b], o⟩ :=
  ⟨rfl, List.cons_ne_nil _ _, fun k hk => by rwa [Nat.lt_one_iff.mp hk]⟩

theorem Event.inOwned_registerRead {addr : Nat} (bytes : List Byte) (o : TxOutcome) (ha : ownedAddr addr = true) :
    Event.InOwned ⟨.busRead Config.chipAddr addr 1 bytes, o⟩ :=
  ⟨rfl, Nat.one_pos, fun k hk => by rwa [Nat.lt_one_iff.mp hk]⟩

/-- From `s` to `t`, H has grown by events inside the owned addresses only. -/
def GrewInOwned (s t : State) : Prop := ∃ evs, t.history = s.history ++ evs ∧ ∀ e ∈ evs, e.InOwned

theorem GrewInOwned.refl (s : State) : GrewInOwned s s := ⟨[], (List.append_nil _).symm, List.forall_mem_nil _⟩

theorem GrewInOwned.append {s t u : State} {evs : List Event} (h : GrewInOwned s t)
    (hu : u.history = t.history ++ evs) (he : ∀ e ∈ evs, e.InOwned) : GrewInOwned s u := by
  obtain ⟨evs', ht, he'⟩ := h
  exact ⟨evs' ++ evs, by rw [hu, ht, List.append_assoc], List.forall_mem_append.mpr ⟨he', he⟩⟩

theorem cfgRead_grewInOwned (s : State) : GrewInOwned s (cfgRead s) :=
  (GrewInOwned.refl s).append (cfgRead_history s)
    (List.forall_mem_singleton.mpr (Event.inOwned_registerRead _ _ ownedAddr_mode1))

theorem cfgWrites_grewInOwned (f : Nat) (s : State) {n : Nat} (hn : n ≤ 4) : GrewInOwned s (cfgWrites f s n) := by
  have write {addr} (b o) (ha : ownedAddr addr = true) :=
    List.forall_mem_singleton.mpr (Event.inOwned_registerWrite b o ha)
  induction n with
  | zero => exact cfgRead_grewInOwned s
  | succ n ih =>
    have before := ih (by omega)
    match n, hn with
    | 0, _ => exact before.append (cfgSlept_history _ _) (write _ _ ownedAddr_mode1)
    | 1, _ => exact before.append (cfgPrescaled_history _ f) (write _ _ ownedAddr_prescale)
    | 2, _ => exact before.append (cfgRestored_history _ _) (write _ _ ownedAddr_mode1)
    | 3, _ =>
      exact before.append (cfgEnabled_history _ _) (List.forall_mem_cons.mpr ⟨rfl, write _ _ ownedAddr_mode1⟩)

theorem Performed.grewInOwned {i : Instr} {s u : State} {n : Nat} (h : Performed i s n u) : GrewInOwned s u := by
  cases h with
  | nothing => exact GrewInOwned.refl s
  | @blockWrite ch _ _ _ p =>
    exact (GrewInOwned.refl s).append (State.afterWrite_history _ _ _)
      (List.forall_mem_singleton.mpr ⟨rfl, List.cons_ne_nil _ _, fun _ => ownedAddr_block ch⟩)
  | @blockRead ch _ _ =>
    exact (GrewInOwned.refl s).append (State.afterRead_history _ _ _)
      (List.forall_mem_singleton.mpr ⟨rfl, by decide, fun _ => ownedAddr_block ch⟩)
  | modeRead => exact cfgRead_grewInOwned s
  | sequence hn => exact cfgWrites_grewInOwned _ s hn

/-- Settles O21: every transaction of a command is of a channel's block, of MODE1 or of PRESCALE. -/
theorem eventsStayInOwnedAddresses : Obligations.EventsStayInOwnedAddresses := by
  unfold Obligations.EventsStayInOwnedAddresses
  refine ⟨fun i s t evs h hevs e he => ?_, fun ch => ⟨chaddr_block_ge ch, ?_⟩, rfl, rfl⟩
  · obtain ⟨n, u, hu, ht⟩ := (ran_of_exec h).performed
    obtain ⟨evs', hevs', owned⟩ := hu.grewInOwned
    have same : evs = evs' := List.append_cancel_left (hevs.symm.trans (ht.history.trans hevs'))
    exact owned e (same ▸ he)
  · have := chaddr_block_le ch
    omega

/-! ### The addresses that the images list -/

theorem WroteRegister.ownedOnly {s t : State} {addr : Nat} {b : Byte} (w : WroteRegister s t addr b)
    (hs : s.OwnedOnly) (ho : ∀ c ∈ (s.drawAt 0).others, ownedAddr c.1.toNat = true) (ha : ownedAddr addr = true) :
    t.OwnedOnly := by
  have after := State.afterWrite_ownedOnly (addr := addr) (bytes := [b]) hs ho (by simp)
    fun k hk => by rwa [Nat.lt_one_iff.mp hk]
  exact ⟨w.chip ▸ after.image, w.written ▸ after.oracle⟩

section ownedOnly
variable {s : State} (hs : s.OwnedOnly) (ho : ∀ k < 5, ∀ c ∈ (s.drawAt k).others, ownedAddr c.1.toNat = true)
include hs ho

theorem cfgRead_ownedOnly : (cfgRead s).OwnedOnly := by
  have after := State.afterRead_ownedOnly (addr := 0x00) (n := 1) hs (ho 0 (by omega))
    fun k hk => by rw [Nat.lt_one_iff.mp hk]; rfl
  exact ⟨cfgRead_chip s ▸ after.image, cfgRead_written s ▸ after.oracle⟩

variable (hl : ∀ k < 5, ∀ c ∈ (s.drawAt k).lost, ownedAddr c.1.toNat = true)
include hl

theorem cfgWrites_ownedOnly (f : Nat) {n : Nat} (hn : n ≤ 4) : (cfgWrites f s n).OwnedOnly := by
  induction n with
  | zero =>
    refine State.throughSleep_ownedOnly (cfgRead_ownedOnly hs ho) ?_
    rw [cfgRead_drawAt]
    exact hl 1 (by omega)
  | succ n ih =>
    refine (cfgWrites_wrote f s hn).ownedOnly (ih (by omega)) ?_ (ownedAddr_cfgWriteAddr n)
    rw [cfgWrites_draw_zero (by omega)]
    exact ho (n + 1) (by omega)

theorem Performed.ownedOnly {i : Instr} {u : State} {n : Nat} (h : Performed i s n u) : u.OwnedOnly := by
  cases h with
  | nothing => exact hs
  | @blockWrite ch _ _ _ p =>
    exact State.afterWrite_ownedOnly hs (ho 0 (by omega)) (Nat.le_refl 4) fun _ => ownedAddr_block ch
  | @blockRead ch _ _ => exact State.afterRead_ownedOnly hs (ho 0 (by omega)) fun _ => ownedAddr_block ch
  | modeRead => exact cfgRead_ownedOnly hs ho
  | sequence hn => exact cfgWrites_ownedOnly hs ho hl _ hn

theorem Ran.ownedOnly {i : Instr} {t : State} (hr : Ran i s t) : t.OwnedOnly := by
  obtain ⟨n, u, hu, ht⟩ := hr.performed
  have owned := hu.ownedOnly hs ho hl
  exact ⟨ht.chip ▸ owned.image, ht.written ▸ owned.oracle⟩

end ownedOnly

/-- Settles O52: a reset lists nothing, and a command's own transactions are in the owned addresses. -/
theorem stepReachesOwnedAddressesOnly : Obligations.StepReachesOwnedAddressesOnly := by
  unfold Obligations.StepReachesOwnedAddressesOnly
  intro s t hs ho hl h
  cases stepped_of_step h with
  | waits _ => exact hs
  | reset _ => exact ⟨List.forall_mem_nil _, List.forall_mem_nil _⟩
  | illegal _ _ => exact ⟨hs.image, hs.oracle⟩
  | @legal _ rest _ _ _ _ hr => exact hr.ownedOnly (s := { s with inbox := rest }) ⟨hs.image, hs.oracle⟩ ho hl

/-! ### What a step keeps of a channel's block -/

theorem State.oracleQuad_of_kept {s t : State} {a : Nat} (h : ∀ k < 4, OracleKept s t (a + k)) :
    t.oracleQuad a = s.oracleQuad a := by
  simp only [State.oracleQuad, Quad.mk.injEq]
  exact ⟨(h 0 (by omega)).answers, (h 1 (by omega)).answers, (h 2 (by omega)).answers, (h 3 (by omega)).answers⟩

theorem State.chipQuad_of_kept {s t : State} {a : Nat} (h : ∀ k < 4, RegisterKept s t (a + k)) :
    t.chipQuad a = s.chipQuad a := by
  simp only [State.chipQuad, Quad.mk.injEq]
  exact ⟨(h 0 (by omega)).holds, (h 1 (by omega)).holds, (h 2 (by omega)).holds, (h 3 (by omega)).holds⟩

theorem cfgRead_oracleKept {s : State} (hv : (s.drawAt 0).overlapped = false) (a : Nat) :
    OracleKept s (cfgRead s) a :=
  oracleKept_of (cfgRead_chipEpoch s)
    (congrArg (·.byte? a) ((cfgRead_written s).trans (State.writtenAfterRead_eq 0 1 hv)))

/-- With bus exclusion kept, CFG's first n writes keep what the deterministic oracle answers for every register but
MODE1 and PRESCALE. -/
theorem cfgWrites_oracleKept (f : Nat) {s : State} {n a : Nat} (hn : n ≤ 4) (ha : a ≠ 0x00) (hp : a ≠ 0xFE)
    (hv : ∀ k < 5, (s.drawAt k).overlapped = false) : OracleKept s (cfgWrites f s n) a := by
  induction n with
  | zero => exact cfgWrites_zero_oracleKept (hv 0 (by omega)) a
  | succ n ih =>
    have draw := cfgWrites_draw_zero (f := f) (s := s) (n := n) (by omega)
    exact (ih (by omega)).trans <| (cfgWrites_wrote f s hn).oracleKept
      (by rw [cfgWriteAddr]; split <;> assumption) (draw ▸ hv (n + 1) (by omega))

section block
variable {i : Instr} {s u t : State} {n : Nat} (hv : ∀ k < 5, (s.drawAt k).overlapped = false)
include hv

/-- With bus exclusion kept, a command changes what the deterministic oracle answers where it stores only, whatever
other masters reach (rule R51). -/
theorem Performed.oracleKept {a : Nat} (h : Performed i s n u) (hs : ¬storesAt i s a) : OracleKept s u a := by
  cases h with
  | nothing => exact ⟨rfl, rfl⟩
  | blockWrite p => exact State.afterWrite_oracleKept (bytes := p.block) (outside_block hs) (hv 0 (by omega))
  | blockRead => exact State.afterRead_oracleKept _ _ _ (hv 0 (by omega))
  | modeRead => exact cfgRead_oracleKept (hv 0 (by omega)) a
  | sequence hn => exact cfgWrites_oracleKept _ hn (fun ha => hs (.inl ha)) (fun ha => hs (.inr ha)) hv

/-- Only a SETD to the channel stores to its block. -/
theorem not_storesAt_block {ch : Channel} (hi : ∀ inv v, i ≠ .setd ch inv v) {k : Nat} (hk : k < 4) :
    ¬storesAt i s (chaddr ch + k) := by
  cases i with
  | enc _ _ | dec _ _ _ => exact id
  | setd ch' inv v =>
    have hne : ch'.val ≠ ch.val := fun h => hi inv v (by rw [Fin.ext h])
    simp only [storesAt, chaddr, Config.chBase, Config.chStride]
    omega
  | getd _ _ =>
    intro h
    have := hv 0 (by omega)
    rw [← State.draw_eq, h.1] at this
    cases this
  | cfg _ =>
    have := chaddr_block_ge ch
    have := chaddr_block_le ch
    simp only [storesAt, Config.mode1Addr, Config.prescaleAddr]
    omega

theorem Ran.oracleQuad_block {ch : Channel} (hr : Ran i s t) (hi : ∀ inv v, i ≠ .setd ch inv v) :
    t.oracleQuad (chaddr ch) = s.oracleQuad (chaddr ch) := by
  obtain ⟨n, u, hu, ht⟩ := hr.performed
  exact State.oracleQuad_of_kept fun k hk =>
    (hu.oracleKept hv (not_storesAt_block hv hi hk)).trans (ht.registerKept _).toOracleKept

/-- Where the deterministic oracle is assumed at the sleep write, and no other master reaches the chip, a command that
is no SETD to the channel keeps its block (rule R126). -/
theorem Ran.chipQuad_block {ch : Channel} (hr : Ran i s t) (hi : ∀ inv v, i ≠ .setd ch inv v)
    (hd : (s.drawAt 1).deterministic = true) (ho : ∀ k < 5, (s.drawAt k).others = []) :
    t.chipQuad (chaddr ch) = s.chipQuad (chaddr ch) := by
  obtain ⟨n, u, hu, ht⟩ := hr.performed
  refine State.chipQuad_of_kept fun k hk => ?_
  have avoid := State.othersAvoid_mono (State.othersAvoid_of_none ho (chaddr ch + k)) hu.le_five
  obtain ⟨-, register⟩ := hu.kept (not_storesAt_block hv hi hk) avoid
  exact (register fun _ => .inl hd).trans (ht.registerKept _)

end block

/-- Settles O53: a command that is no SETD to the channel stores nothing in its block. -/
theorem stepKeepsChannelBlock : Obligations.StepKeepsChannelBlock := by
  unfold Obligations.StepKeepsChannelBlock
  intro ch s t hv hreset hsetd h
  cases stepped_of_step h with
  | waits _ => exact ⟨rfl, fun _ _ => rfl⟩
  | reset hin => exact absurd hin (hreset _)
  | illegal _ _ => exact ⟨rfl, fun _ _ => rfl⟩
  | @legal _ rest _ _ hin hw hr =>
    have hi : ∀ inv v, _ ≠ Instr.setd ch inv v := fun inv v hi => hsetd _ _ inv v hin (hi ▸ hw)
    exact ⟨hr.oracleQuad_block (s := { s with inbox := rest }) hv hi, fun hd ho =>
      hr.chipQuad_block (s := { s with inbox := rest }) hv hi (hd 1 (by omega)) ho⟩

end Sys2Proof.Machine
end

section
/-! PROOFS. SETD and GETD: a completed and a faulted block write (O32, O33), a block read in each of its ends (O35 to
O37), and the duty value that a GETD reads back (O38, O39). -/

namespace Sys2Proof.Machine

/-! ### SETD -/

/-- The four bytes of a pair's block (rules R45 and R67). -/
def RegPair.quad (p : RegPair) : Quad :=
  ⟨p.onHalf.extractLsb' 0 8, p.onHalf.extractLsb' 8 8, p.offHalf.extractLsb' 0 8, p.offHalf.extractLsb' 8 8⟩

theorem RegPair.quad_toList (p : RegPair) : p.quad.toList = p.block := rfl
theorem onOf_quad (p : RegPair) : onOf p.quad = p.onHalf := half_le16 _
theorem offOf_quad (p : RegPair) : offOf p.quad = p.offHalf := half_le16 _

section blockWrite
variable {s : State} {addr : Nat} {p : RegPair}

/-- A block write that is ok and not overlapped is what the chip then holds and the deterministic oracle answers. -/
theorem afterWrite_block_ok (hf : (s.drawAt 0).fault = false) (hv : (s.drawAt 0).overlapped = false) :
    (s.afterWrite addr p.block).chipQuad addr = p.quad ∧ (s.afterWrite addr p.block).oracleQuad addr = p.quad := by
  refine ⟨State.chipQuad_of_setBlock p.quad (State.chipAfterWrite_ok addr p.block hf hv),
    State.oracleQuad_of_setBlock (m := s.written) p.quad ?_⟩
  rw [State.afterWrite_written, State.writtenAfterWrite_eq _ _ hv, hf]
  rfl

/-- A block write that faults leaves any bytes in the block (rule R52). -/
theorem afterWrite_block_fault (hf : (s.drawAt 0).fault = true) :
    (s.afterWrite addr p.block).chipQuad addr = s.draw.left := by
  refine State.chipQuad_of_setBlock (m := s.chipOfOthers) _ ?_
  rw [State.afterWrite_chip, State.chipAfterWrite, landedBytes_fault (d := s.draw) _ hf]
  rfl

theorem afterWrite_written_fault {bytes : List Byte} (hf : (s.drawAt 0).fault = true)
    (hv : (s.drawAt 0).overlapped = false) : (s.afterWrite addr bytes).written = s.written := by
  rw [State.afterWrite_written, State.writtenAfterWrite_eq _ _ hv, hf]
  rfl

end blockWrite

/-- A SETD that has written its block keeps every register outside it that no other master reaches. -/
theorem setdEnd_registerKept {s : State} {ch : Channel} {p : RegPair} {a : Nat} (e : Status) (r0 r1 : Half)
    (ha : a < chaddr ch ∨ chaddr ch + 4 ≤ a) (ho : s.OthersAvoid 1 a) :
    RegisterKept s ((s.afterWrite (chaddr ch) p.block).respond e r0 r1) a :=
  (State.afterWrite_registerKept (bytes := p.block) (Nat.le_refl 4) ha ho).trans
    (State.respond_registerKept _ e r0 r1 a)

theorem afterWrite_respond_endsIn (s : State) (addr : Nat) (bytes : List Byte) (e : Status) (r0 r1 : Half) :
    EndsIn s 1 ((s.afterWrite addr bytes).respond e r0 r1) :=
  (ended_respond _ e r0 r1).endsIn rfl rfl rfl fun k => State.afterWrite_drawAt s k _ _

/-- Settles O32: the state SETD ends in is the one after its ok block write. -/
theorem setdWritesChannelBlock : Obligations.SetdWritesChannelBlock := by
  unfold Obligations.SetdWritesChannelBlock
  intro ch inv value p s hp hc hf
  rw [State.draw_eq] at hf
  refine ⟨_, (Ran.setd hp hc hf).exec, rfl, ?_, fun hv => ?_, fun a => setdEnd_registerKept _ _ _, hc,
    afterWrite_respond_endsIn _ _ _ _ _ _⟩
  · rw [State.respond_history, State.afterWrite_history, State.txOutcome_ok hf, RegPair.block_eq]
  · obtain ⟨chip, oracle⟩ := afterWrite_block_ok (addr := chaddr ch) (p := p) hf hv
    refine ⟨?_, ?_, oracle.trans chip.symm⟩
    · exact (congrArg (fun q => (onOf q).toNat) chip).trans (by rw [onOf_quad, onHalf_toNat hp])
    · exact (congrArg (fun q => (offOf q).toNat) chip).trans (by rw [offOf_quad, offHalf_toNat hp])

/-- Settles O33: the state SETD ends in is the one after its faulted block write. -/
theorem setdBusFault : Obligations.SetdBusFault := by
  unfold Obligations.SetdBusFault
  intro ch inv value p s hp hc hf
  rw [State.draw_eq] at hf
  refine ⟨_, (Ran.setdFault hp hc hf).exec, rfl, ?_, afterWrite_block_fault hf, afterWrite_written_fault hf,
    fun a => setdEnd_registerKept _ _ _, hc, afterWrite_respond_endsIn _ _ _ _ _ _⟩
  rw [State.respond_history, State.afterWrite_history, State.txOutcome_fault hf]

/-! ### GETD -/

theorem onOf_toNat (q : Quad) : (onOf q).toNat = q.b0.toNat + 256 * q.b1.toNat := half_toNat _ _
theorem offOf_toNat (q : Quad) : (offOf q).toNat = q.b2.toNat + 256 * q.b3.toNat := half_toNat _ _

section blockRead
variable {s : State} {addr : Nat}

/-- The event of a block read that does not fault holds the bytes read. -/
theorem afterRead_history_ok {q : Quad} (hf : (s.drawAt 0).fault = false) (hq : s.answerBytes s.draw addr = q) :
    (s.afterRead addr 4).history =
      s.history ++ [⟨.busRead Config.chipAddr addr 4 [q.b0, q.b1, q.b2, q.b3], .ok⟩] := by
  rw [State.afterRead_history, State.txOutcome_ok hf, State.readBytes_ok _ _ hf, hq]
  rfl

theorem afterRead_history_fault (n : Nat) (hf : (s.drawAt 0).fault = true) :
    (s.afterRead addr n).history = s.history ++ [⟨.busRead Config.chipAddr addr n [], .fault⟩] := by
  rw [State.afterRead_history, State.txOutcome_fault hf, State.readBytes_fault _ _ hf]

/-- With bus exclusion kept a read changes nothing for the deterministic oracle, nor for the chip where no other master
reaches it (rule R50). -/
theorem afterRead_images_kept (addr n : Nat) (hv : s.draw.overlapped = false) :
    (s.afterRead addr n).written = s.written ∧ (s.draw.others = [] → (s.afterRead addr n).chip = s.chip) :=
  ⟨State.writtenAfterRead_eq addr n hv, State.chipAfterRead_eq addr n hv⟩

theorem afterRead_respond_endsIn (s : State) (addr n : Nat) (e : Status) (r0 r1 : Half) :
    EndsIn s 1 ((s.afterRead addr n).respond e r0 r1) :=
  (ended_respond _ e r0 r1).endsIn rfl rfl rfl fun k => State.afterRead_drawAt s k _ _

end blockRead

/-- Settles O35: the state GETD ends in is the one after its ok read. -/
theorem getdReturnsDuty : Obligations.GetdReturnsDuty := by
  unfold Obligations.GetdReturnsDuty
  intro ch inv v q s hc hf hq hdec
  rw [State.draw_eq] at hf
  rw [← State.answerBytes_eq] at hq
  rw [← onOf_toNat, ← offOf_toNat] at hdec
  exact ⟨_, (Ran.getd hc hf hq.symm hdec).exec, rfl, afterRead_history_ok hf hq.symm, afterRead_images_kept _ _, hc,
    afterRead_respond_endsIn _ _ _ _ _ _⟩

/-- Settles O36: the state GETD ends in is the one after its ok read, with the raw pair in the response. -/
theorem getdReportsForeignPattern : Obligations.GetdReportsForeignPattern := by
  unfold Obligations.GetdReportsForeignPattern
  intro ch inv q s hc hf hq hdec
  rw [State.draw_eq] at hf
  rw [← State.answerBytes_eq] at hq
  rw [← onOf_toNat, ← offOf_toNat] at hdec
  exact ⟨_, ⟨.decodeError, onOf q, offOf q⟩, (Ran.getdOther hc hf hq.symm hdec).exec, rfl, rfl, onOf_toNat q,
    offOf_toNat q, afterRead_history_ok hf hq.symm, afterRead_images_kept _ _, hc, afterRead_respond_endsIn _ _ _ _ _ _⟩

/-- Settles O37: an unconfigured GETD answers at once, and a faulted one ends in the state after its read. -/
theorem getdUnconfiguredOrFaulted : Obligations.GetdUnconfiguredOrFaulted := by
  unfold Obligations.GetdUnconfiguredOrFaulted
  refine fun ch inv s => ⟨fun hc => (Ran.getdUnconfigured hc).exec, fun hc hf => ?_⟩
  rw [State.draw_eq] at hf
  exact ⟨_, (Ran.getdFault hc hf).exec, rfl, afterRead_history_fault 4 hf, afterRead_images_kept _ _, hc,
    afterRead_respond_endsIn _ _ _ _ _ _⟩

/-! ### Reading a duty value back -/

/-- The value read back with either flag, as an integer (rules R84 and R136). -/
theorem complementIf_readBack {v : Int} (inv inv' : Bool) (hv : 0 ≤ v ∧ v ≤ 4095) :
    (complementIf inv' (complementIf inv v.toNat) : Int) = if inv' = inv then v else 4095 - v := by
  by_cases h : inv' = inv
  · rw [h, complementIf_complementIf (by omega), if_pos rfl]
    omega
  · have h' : inv' = !inv := by rwa [Bool.eq_not]
    rw [if_neg h, h']
    cases inv <;> simp [complementIf] <;> omega

theorem decodeDuty_encoded {v : Int} {inv : Bool} {p : RegPair} (inv' : Bool) (hp : encodeDuty v inv = some p) :
    decodeDuty p.on p.off inv' = some (complementIf inv' (complementIf inv v.toNat)) := by
  have range := encodeDuty_range hp
  rw [encodeDuty_eq inv range, Option.some.injEq] at hp
  rw [← hp, decodeDuty_pairOf (complementIf_le (by omega))]

/-- A GETD whose read the deterministic oracle answers with the pair of a value gives that value, or its complement
where the flags differ. -/
theorem exec_getd_of_oracleQuad {s : State} {ch : Channel} {v : Int} {inv : Bool} {p : RegPair} (inv' : Bool)
    (hp : encodeDuty v inv = some p) (hc : s.configured = true) (hf : s.draw.fault = false)
    (hd : s.draw.deterministic = true) (hv : s.draw.overlapped = false) (hq : s.oracleQuad (chaddr ch) = p.quad) :
    ∃ u, exec (.getd ch inv') s = .next u ∧
      u.responses = s.responses ++ [⟨.ok, BitVec.ofInt 16 (if inv' = inv then v else 4095 - v), 0⟩] := by
  have read : s.answerBytes s.draw (chaddr ch) = p.quad := by
    rw [State.answerBytes_eq, if_pos ⟨hd, hv⟩, hq]
  have value : decodeDuty (onOf p.quad).toNat (offOf p.quad).toNat inv' =
      some (complementIf inv' (complementIf inv v.toNat)) := by
    rw [onOf_quad, offOf_quad, onHalf_toNat hp, offHalf_toNat hp, decodeDuty_encoded inv' hp]
  refine ⟨_, (Ran.getd hc hf read value).exec, ?_⟩
  rw [← complementIf_readBack inv inv' (encodeDuty_range hp), BitVec.ofInt_natCast]
  rfl

/-- A SETD that answered OK wrote the pair of its value in one transaction that did not fault. -/
theorem setd_of_ok {s t : State} {ch : Channel} {inv : Bool} {v : Int} {r : Response}
    (h : exec (.setd ch inv v) s = .next t) (hr : t.responses = s.responses ++ [r]) (hok : r.status = .ok) :
    ∃ p, encodeDuty v inv = some p ∧ s.configured = true ∧ (s.drawAt 0).fault = false ∧
      t = (s.afterWrite (chaddr ch) p.block).respond .ok p.onHalf p.offHalf := by
  have status {e : Status} {r0 r1 : Half} (h : s.responses ++ [⟨e, r0, r1⟩] = s.responses ++ [r]) : e = .ok := by
    rw [← hok, ← List.singleton_inj.mp (List.append_cancel_left h)]
  cases ran_of_exec h with
  | setdOut _ | setdUnconfigured _ _ | setdFault _ _ _ => cases status hr
  | @setd _ _ _ _ p hp hc h0 => exact ⟨p, hp, hc, h0, rfl⟩

/-- After a SETD that answered OK, with bus exclusion kept, the deterministic oracle answers the pair of its value. -/
theorem oracleQuad_of_setd {s t : State} {ch : Channel} {inv : Bool} {v : Int} {r : Response}
    (h : exec (.setd ch inv v) s = .next t) (hr : t.responses = s.responses ++ [r]) (hok : r.status = .ok)
    (hv : s.draw.overlapped = false) :
    ∃ p, encodeDuty v inv = some p ∧ t.configured = true ∧ t.oracleQuad (chaddr ch) = p.quad := by
  obtain ⟨p, hp, hc, h0, rfl⟩ := setd_of_ok h hr hok
  exact ⟨p, hp, hc, (afterWrite_block_ok h0 hv).2⟩

/-- Settles O38: the deterministic oracle answers GETD the pair that SETD wrote. -/
theorem getdReadsBackSetd : Obligations.GetdReadsBackSetd := by
  unfold Obligations.GetdReadsBackSetd
  intro ch inv inv' value r s t h hr hok hv hf hd hv'
  obtain ⟨p, hp, hc, hq⟩ := oracleQuad_of_setd h hr hok hv
  exact exec_getd_of_oracleQuad inv' hp hc hf hd hv' hq

/-! ### A duty value across a run -/

/-- A step uses up the free values of five transactions at most. -/
theorem Stepped.drawAt_later {s t : State} (h : Stepped s t) : ∃ n ≤ 5, ∀ k, t.drawAt k = s.drawAt (k + n) := by
  cases h with
  | waits _ | reset _ | illegal _ _ => exact ⟨0, by omega, fun _ => rfl⟩
  | legal _ _ hr =>
    obtain ⟨n, u, hu, ht⟩ := hr.performed
    exact ⟨n, hu.le_five, (hu.endsIn ht).drawAt⟩

/-- Commands none of which is a SETD to the channel keep what the deterministic oracle answers for its block, where no
transaction is overlapped; nor is the next one after them. -/
theorem run_keeps_oracleQuad {ch : Channel} {ws : List Word} {s t : State}
    (hv : ∀ k ≤ 5 * ws.length, (s.drawAt k).overlapped = false) (hin : s.inbox = ws.map HostInput.command)
    (hsetd : ∀ w ∈ ws, ∀ inv v, decode w ≠ .ok (.setd ch inv v)) (h : Sys2Proof.core.run ws.length s = .next t) :
    t.oracleQuad (chaddr ch) = s.oracleQuad (chaddr ch) ∧ (t.drawAt 0).overlapped = false := by
  induction ws generalizing s with
  | nil =>
    cases (core_run_zero s).symm.trans h
    exact ⟨rfl, hv 0 (by omega)⟩
  | cons w ws ih =>
    obtain ⟨first, others⟩ := List.forall_mem_cons.mp hsetd
    rw [List.length_cons] at hv
    obtain ⟨u, -, -, hstep, hinbox, -, -⟩ := step_of_word hin
    obtain ⟨n, hn, hdraws⟩ := (stepped_of_step hstep).drawAt_later
    obtain ⟨kept, -⟩ := stepKeepsChannelBlock ch s u (fun k hk => hv k (by omega)) (by simp [hin])
      (fun w' _ inv v hw' => by
        rw [hin, List.map_cons, List.cons.injEq, HostInput.command.injEq] at hw'
        exact hw'.1 ▸ first inv v) hstep
    obtain ⟨rest, next⟩ := ih (fun k hk => by rw [hdraws]; exact hv _ (by omega)) hinbox others
      ((core_run_succ _ hstep).symm.trans h)
    exact ⟨rest.trans kept, next⟩

/-- Settles O39: the deterministic oracle still answers the pair that SETD wrote. -/
theorem dutyKeptAcrossARun : Obligations.DutyKeptAcrossARun := by
  unfold Obligations.DutyKeptAcrossARun
  intro ch inv value r ws s t u h hr hok hv hvs hin hsetd hrun hc hf hd
  obtain ⟨p, hp, -, hq⟩ := oracleQuad_of_setd h hr hok hv
  obtain ⟨kept, exclusive⟩ := run_keeps_oracleQuad hvs hin hsetd hrun
  simpa using exec_getd_of_oracleQuad inv hp hc hf hd exclusive (kept.trans hq)

end Sys2Proof.Machine
end

section
/-! PROOFS. What surrounds a PRESCALE write in H, as the bus monitor's moves say (O47); and what the chip keeps of its
registers across a CFG's sleep (O55). -/

namespace Sys2Proof.Machine

/-! ### The moves of the bus monitor -/

/-- Where a bus write takes the monitor: on where it is ok, between commands where it faults (rule R95). -/
def MonitorPos.after (o : TxOutcome) (next : MonitorPos) : MonitorPos := if o = .ok then next else .rest

/-- Every way the bus monitor can move: `MonitorMoves p e q` says that the event `e` takes it from `p` to `q`. -/
inductive MonitorMoves : MonitorPos → Event → MonitorPos → Prop
  | breaks {p e} : MonitorMoves p e .broken
  | block {e} (h : ∀ device bytes, e.kind ≠ .busWrite device 0xFE bytes) : MonitorMoves .rest e .rest
  | modeRead {old} : MonitorMoves .rest ⟨.busRead Config.chipAddr 0x00 1 [old], .ok⟩ (.modeRead old)
  | sleep {old o q} (h : q = .after o (.asleep old)) :
    MonitorMoves (.modeRead old) ⟨.busWrite Config.chipAddr 0x00 [sleepValue old], o⟩ q
  | prescale {old b o q} (h : q = .after o (.prescaled old)) :
    MonitorMoves (.asleep old) ⟨.busWrite Config.chipAddr 0xFE [b], o⟩ q
  | restore {old o q} (h : q = .after o (.restored old)) :
    MonitorMoves (.prescaled old) ⟨.busWrite Config.chipAddr 0x00 [restoreValue old], o⟩ q
  | settle {old} : MonitorMoves (.restored old) ⟨.wait Config.tSettle, .ok⟩ (.settled old)
  | enable {old} {o : TxOutcome} :
    MonitorMoves (.settled old) ⟨.busWrite Config.chipAddr 0x00 [aiValue old], o⟩ .rest

/-- In the middle of CFG every event but the expected write breaks the monitor. -/
theorem monitorMoves_expectWrite {m next : Monitor} {e : Event} {addr : Nat} {accept : Byte → Bool} {p : MonitorPos}
    (hw : ∀ b o, accept b = true →
      MonitorMoves p ⟨.busWrite Config.chipAddr addr [b], o⟩ (.after o next.pos)) :
    MonitorMoves p e (m.expectWrite e addr accept next).pos := by
  obtain ⟨kind, o⟩ := e
  unfold Monitor.expectWrite
  split
  · next device a b hk =>
    split
    · next hacc =>
      obtain ⟨rfl, rfl, hb⟩ := hacc
      cases hk
      cases o with
      | ok | fault => exact hw b _ hb
    · exact .breaks
  · exact .breaks

/-- Between commands the monitor stays there, breaks, or sees the MODE1 read that opens CFG; PRESCALE is no block's
address. -/
theorem monitorMoves_observeAtRest {m : Monitor} (e : Event) (hm : m.pos = .rest) :
    MonitorMoves .rest e (m.observeAtRest e).pos := by
  have read {device addr n : Nat} {bytes : List Byte} {o : TxOutcome} :
      MonitorMoves .rest ⟨.busRead device addr n bytes, o⟩ m.pos := hm ▸ .block fun _ _ => by simp
  obtain ⟨kind, o⟩ := e
  cases kind with
  | wait _ => exact .breaks
  | busWrite device addr bytes =>
    simp only [Monitor.observeAtRest]
    split
    · next h =>
      rw [hm]
      refine .block fun _ _ hk => ?_
      cases hk
      exact absurd h.2.1 (by decide)
    · exact .breaks
  | busRead device addr n bytes =>
    simp only [Monitor.observeAtRest]
    split
    · next hdevice =>
      subst hdevice
      cases o with
      | fault =>
        dsimp only
        split
        · exact read
        · exact .breaks
      | ok =>
        dsimp only
        split
        · next hmode =>
          obtain ⟨rfl, rfl⟩ := hmode
          split
          · exact .modeRead
          · exact .breaks
        · split
          · exact read
          · exact .breaks
    · exact .breaks

theorem monitorMoves_observe (m : Monitor) (e : Event) : MonitorMoves m.pos e (m.observe e).pos := by
  obtain ⟨pos, c⟩ := m
  cases pos with
  | rest => exact monitorMoves_observeAtRest e rfl
  | modeRead old =>
    exact monitorMoves_expectWrite fun b o hb => by rw [of_decide_eq_true hb]; exact .sleep rfl
  | asleep old => exact monitorMoves_expectWrite fun b o _ => .prescale rfl
  | prescaled old =>
    exact monitorMoves_expectWrite fun b o hb => by rw [of_decide_eq_true hb]; exact .restore rfl
  | restored old =>
    simp only [Monitor.observe]
    split
    · next he => rw [he]; exact .settle
    · exact .breaks
  | settled old =>
    refine monitorMoves_expectWrite fun b o hb => ?_
    rw [of_decide_eq_true hb, MonitorPos.after, ite_self]
    exact .enable
  | broken => exact .breaks

/-- A broken monitor stays broken. -/
theorem foldl_observe_broken (evs : List Event) {m : Monitor} (hm : m.pos = .broken) :
    (evs.foldl Monitor.observe m).pos = .broken := by
  induction evs generalizing m with
  | nil => exact hm
  | cons e evs ih => exact ih (by rw [Monitor.observe, hm]; exact hm)

/-! ### What surrounds a PRESCALE write -/

section moves
variable {p q : MonitorPos} {e : Event} {old : Byte}

/-- A PRESCALE write that does not break the monitor comes right after an ok sleep write. -/
theorem MonitorMoves.from_asleep {device : Nat} {bytes : List Byte} {o : TxOutcome}
    (h : MonitorMoves p ⟨.busWrite device 0xFE bytes, o⟩ q) (hq : q ≠ .broken) :
    ∃ old, p = .asleep old ∧ (o = .ok → q = .prescaled old) := by
  cases h with
  | breaks => exact absurd rfl hq
  | block hk => exact absurd rfl (hk _ _)
  | prescale h => exact ⟨_, rfl, fun ho => h.trans (if_pos ho)⟩

theorem MonitorMoves.sleep_of_asleep (h : MonitorMoves p e (.asleep old)) :
    p = .modeRead old ∧ e = ⟨.busWrite Config.chipAddr 0x00 [sleepValue old], .ok⟩ := by
  cases h with
  | @sleep old' o _ h =>
    cases o with
    | ok => cases h; exact ⟨rfl, rfl⟩
    | fault => cases h
  | @prescale _ _ o _ h | @restore _ o _ h =>
    cases o <;> cases h

theorem MonitorMoves.read_of_modeRead (h : MonitorMoves p e (.modeRead old)) :
    e = ⟨.busRead Config.chipAddr 0x00 1 [old], .ok⟩ := by
  cases h with
  | modeRead => rfl
  | @sleep _ o _ h | @prescale _ _ o _ h | @restore _ o _ h =>
    cases o <;> cases h

theorem MonitorMoves.restore_of_prescaled (h : MonitorMoves (.prescaled old) e q) (hq : q ≠ .broken) :
    ∃ o, e = ⟨.busWrite Config.chipAddr 0x00 [old], o⟩ := by
  cases h with
  | breaks => exact absurd rfl hq
  | restore _ => exact ⟨_, rfl⟩

end moves

/-- If the monitor's place is not that after reset, H ends with the event that led to it. -/
theorem monitorOf_last {h : List Event} (hp : (monitorOf h).pos ≠ .rest) :
    ∃ before e, h = before ++ [e] ∧ MonitorMoves (monitorOf before).pos e (monitorOf h).pos := by
  rcases h.eq_nil_or_concat' with rfl | ⟨before, e, rfl⟩
  · exact absurd rfl hp
  · refine ⟨before, e, rfl, ?_⟩
    rw [monitorOf_concat]
    exact monitorMoves_observe _ e

/-- The chip is asleep right after the MODE1 read and the ok sleep write built from the byte read. -/
theorem history_of_asleep {h : List Event} {old : Byte} (hp : (monitorOf h).pos = .asleep old) :
    ∃ before, h = before ++ [⟨.busRead Config.chipAddr 0x00 1 [old], .ok⟩,
      ⟨.busWrite Config.chipAddr 0x00 [sleepValue old], .ok⟩] := by
  obtain ⟨h', _, rfl, last⟩ := monitorOf_last (h := h) (by simp [hp])
  rw [hp] at last
  obtain ⟨hp', rfl⟩ := last.sleep_of_asleep
  obtain ⟨before, _, rfl, opening⟩ := monitorOf_last (h := h') (by simp [hp'])
  rw [hp'] at opening
  rw [opening.read_of_modeRead]
  exact ⟨before, List.append_assoc _ _ _⟩

/-- Events that take the monitor from the PRESCALE write to between commands begin with the restore write. -/
theorem restore_first {m : Monitor} {old : Byte} {evs : List Event} (hm : m.pos = .prescaled old)
    (hr : (evs.foldl Monitor.observe m).pos = .rest) :
    ∃ o after, evs = ⟨.busWrite Config.chipAddr 0x00 [old], o⟩ :: after := by
  cases evs with
  | nil => cases hm.symm.trans hr
  | cons e after =>
    have unbroken : (m.observe e).pos ≠ .broken := fun hb => by
      cases (foldl_observe_broken after hb).symm.trans hr
    obtain ⟨o, rfl⟩ := (hm ▸ monitorMoves_observe m e).restore_of_prescaled unbroken
    exact ⟨o, after, rfl⟩

/-- Settles O47: in H, which leaves the monitor between commands, nothing has broken it. -/
theorem prescaleWrittenOnlyBetweenSleepAndRestore : Obligations.PrescaleWrittenOnlyBetweenSleepAndRestore := by
  unfold Obligations.PrescaleWrittenOnlyBetweenSleepAndRestore
  intro s pre post device bytes o hs hh
  have ends : (post.foldl Monitor.observe ((monitorOf pre).observe ⟨.busWrite device 0xFE bytes, o⟩)).pos = .rest := by
    rw [← List.foldl_cons, ← monitorOf_append, ← hh, hs.events]
  have unbroken : ((monitorOf pre).observe ⟨.busWrite device 0xFE bytes, o⟩).pos ≠ .broken := fun hb => by
    cases (foldl_observe_broken post hb).symm.trans ends
  obtain ⟨old, hasleep, hprescaled⟩ := (monitorMoves_observe _ _).from_asleep unbroken
  obtain ⟨before, hpre⟩ := history_of_asleep hasleep
  exact ⟨before, old, hpre, fun ho => restore_first (hprescaled ho) ends⟩

/-! ### The chip's registers across a CFG's sleep -/

section sleep
variable {f : Nat} {s : State} {a : Nat} (ha : a ≠ 0x00) (hp : a ≠ 0xFE)
  (ho : ∀ k < 5, (s.drawAt k).others = [])
include ha hp ho

/-- From the sleep on, CFG changes no register but MODE1 and PRESCALE. -/
theorem cfgTransacted_registerKept_afterSleep : RegisterKept (cfgRead s).throughSleep (cfgTransacted f s) a := by
  have avoid := State.othersAvoid_of_none ho a
  exact (cfgSlept_registerKept_afterSleep (cfgOld s) ha
    (State.othersAvoid_later (n := 1) (State.othersAvoid_mono avoid (by omega)) fun k => by simp)).trans
    (cfgEnabled_registerKept_fromSlept (cfgOld s) f ha hp (State.othersAvoid_later (n := 2) avoid fun k => by simp))

/-- Under the general oracle a register that the chip loses across CFG's sleep holds the byte it is left with, and every
other one but MODE1 and PRESCALE what it held (rule R126). -/
theorem cfgTransacted_chipByte_of_lost {lostAt b : Byte} (hd : (s.drawAt 1).deterministic = false)
    (hl : (s.drawAt 1).lost = [(lostAt, b)]) :
    (cfgTransacted f s).chipByte a = if lostAt.toNat = a then b else s.chipByte a := by
  have asleep : (cfgRead s).chipThroughSleep = (cfgRead s).chip.set lostAt.toNat b := by
    rw [State.chipThroughSleep_general (by simpa using hd), cfgRead_drawAt, hl]
    rfl
  refine (cfgTransacted_registerKept_afterSleep ha hp ho).holds.trans ?_
  split
  · next h =>
    subst h
    refine State.chipByte_of_byte? ?_
    rw [State.throughSleep_chip, asleep, Memory.byte?_set_self]
  · next h =>
    have read := cfgRead_registerKept ha (State.othersAvoid_of_none (s := s) (n := 1) (fun k hk => ho k (by omega)) a)
    refine (State.chipByte_congr (s := cfgRead s) (t := (cfgRead s).throughSleep) rfl ?_).trans read.holds
    rw [State.throughSleep_chip, asleep, Memory.byte?_set_ne _ _ (Ne.symm h)]

end sleep

/-- Settles O55: CFG's sleep is where the chip loses registers, and nothing after it touches them. -/
theorem chipKeepsChannelsInSleepOnlyByOracle : Obligations.ChipKeepsChannelsInSleepOnlyByOracle := by
  unfold Obligations.ChipKeepsChannelsInSleepOnlyByOracle
  intro f s hr hf _ ho
  have kept {a : Nat} (ha : a ≠ 0x00) (hp : a ≠ 0xFE) :=
    cfgTransacted_kept (f := f) ha hp (State.othersAvoid_of_none ho a)
  exact ⟨_, execCfg_ok f hr hf, fun a ha hp => (kept ha hp).1.answers,
    fun hd a ha hp => ((kept ha hp).2 (.inl hd)).holds,
    fun a _ _ ha hp => cfgTransacted_chipByte_of_lost ha hp ho⟩

end Sys2Proof.Machine
end

section
/-! PROOFS. The words a command can have and the command each stands for, and with them the decoder and the encoder
against each other (O1, O2, O6), against rule R68's pseudocode and the opcode table (O3), and against rules R65 and R62
(O4, O5). -/

namespace Sys2Proof

/-! ### A word is its seven fields (rule R61) -/

theorem word_toNat_eq_fields (w : Word) :
    w.toNat = field w 3 0 + 2 ^ 4 * field w 7 4 + 2 ^ 8 * field w 8 8 + 2 ^ 9 * field w 15 9 + 2 ^ 16 * field w 31 16 +
      2 ^ 32 * field w 47 32 + 2 ^ 48 * field w 63 48 := by
  have := w.isLt
  simp only [field]
  omega

theorem word_eq_iff_fields (v w : Word) :
    v = w ↔ field v 3 0 = field w 3 0 ∧ field v 7 4 = field w 7 4 ∧ field v 8 8 = field w 8 8 ∧
      field v 15 9 = field w 15 9 ∧ field v 31 16 = field w 31 16 ∧ field v 47 32 = field w 47 32 ∧
      field v 63 48 = field w 63 48 := by
  constructor
  · rintro rfl
    simp
  · rintro ⟨op, ch, inv, rsv0, a, b, rsv1⟩
    exact BitVec.eq_of_toNat_eq (by rw [word_toNat_eq_fields v, word_toNat_eq_fields w, op, ch, inv, rsv0, a, b, rsv1])

/-- Only one word has the fields of a record. -/
theorem HasFields.unique {v w : Word} {c : Cmd} (hv : HasFields v c) (hw : HasFields w c) : v = w :=
  (word_eq_iff_fields v w).mpr ⟨hv.op.trans hw.op.symm, hv.ch.trans hw.ch.symm, hv.inv.trans hw.inv.symm,
    hv.rsv0.trans hw.rsv0.symm, hv.a.trans hw.a.symm, hv.b.trans hw.b.symm, hv.rsv1.trans hw.rsv1.symm⟩

/-! ### The words of an operation, and the command of each -/

/-- The fields that an operation does not use are zero (rule R64). -/
def UnusedZero (w : Word) : Op → Prop
  | .enc => field w 7 4 = 0 ∧ field w 47 32 = 0
  | .dec => field w 7 4 = 0
  | .setd => field w 47 32 = 0
  | .getd => field w 31 16 = 0 ∧ field w 47 32 = 0
  | .cfg => field w 7 4 = 0 ∧ field w 8 8 = 0 ∧ field w 47 32 = 0

/-- A legal word of an operation (rules R61 to R64). -/
structure WordOf (w : Word) (op : Op) : Prop where
  opcode : field w 3 0 = op.code
  rsv0 : field w 15 9 = 0
  rsv1 : field w 63 48 = 0
  unused : UnusedZero w op

theorem wordOf_iff (w : Word) (op : Op) :
    WordOf w op ↔ field w 3 0 = op.code ∧ field w 15 9 = 0 ∧ field w 63 48 = 0 ∧ UnusedZero w op :=
  ⟨fun ⟨h, rsv0, rsv1, unused⟩ => ⟨h, rsv0, rsv1, unused⟩, fun ⟨h, rsv0, rsv1, unused⟩ => ⟨h, rsv0, rsv1, unused⟩⟩

/-- The command that a legal word of an operation stands for (rule R65). -/
def commandOf (w : Word) : Op → Instr
  | .enc => .enc (invOf w) (valueOf w)
  | .dec => .dec (invOf w) (field w 31 16) (field w 47 32)
  | .setd => .setd (chOf w) (invOf w) (valueOf w)
  | .getd => .getd (chOf w) (invOf w)
  | .cfg => .cfg (field w 31 16)

/-- What the decoder can answer: the command of a legal word, and nothing for any other word. -/
theorem decode_eq_ok_iff (w : Word) (i : Instr) : decode w = .ok i ↔ ∃ op, WordOf w op ∧ commandOf w op = i := by
  constructor
  · intro h
    unfold decode at h
    split at h
    · cases h
    · next op hop =>
      split at h
      · cases h
      · next hrsv =>
        obtain ⟨rsv0, rsv1⟩ := not_or.mp hrsv
        have answered : UnusedZero w op ∧ commandOf w op = i := by
          cases op <;> dsimp only at h <;> split at h <;> simp_all [UnusedZero, commandOf]
        exact ⟨op, ⟨(opOf_eq_some_iff _ _).mp hop, not_not.mp rsv0, not_not.mp rsv1, answered.1⟩, answered.2⟩
  · rintro ⟨op, ⟨opcode, rsv0, rsv1, unused⟩, rfl⟩
    have hop := (opOf_eq_some_iff _ _).mpr opcode
    cases op <;> simp_all [decode, UnusedZero, commandOf]

theorem exists_decode_iff (w : Word) : (∃ i, decode w = .ok i) ↔ ∃ op, WordOf w op := by
  simp only [decode_eq_ok_iff]
  exact ⟨fun ⟨_, op, h, _⟩ => ⟨op, h⟩, fun ⟨op, h⟩ => ⟨_, op, h, rfl⟩⟩

theorem chOf_val (w : Word) : (chOf w).val = field w 7 4 := Nat.mod_eq_of_lt (field_lt w 7 4)

theorem invOf_toNat (w : Word) : (invOf w).toNat = field w 8 8 := by
  have := field_lt w 8 8
  unfold invOf
  by_cases h : field w 8 8 = 1 <;> simp [h]
  omega

theorem twos16_valueOf (w : Word) : twos16 (valueOf w) = field w 31 16 := twos16_sext16 (field_lt w 31 16)

theorem commandOf_wellFormed (w : Word) (op : Op) : (commandOf w op).wellFormed = true := by
  have value : valueEncodable (valueOf w) = true := valueEncodable_sext16 (field_lt w 31 16)
  have a := field_lt w 31 16
  have b := field_lt w 47 32
  cases op <;> simp [commandOf, Instr.wellFormed, halfEncodable, value] <;> omega

theorem WordOf.hasFields {w : Word} {op : Op} (h : WordOf w op) : HasFields w (commandOf w op).cmd := by
  obtain ⟨opcode, rsv0, rsv1, unused⟩ := h
  cases op <;> constructor <;>
    simp_all [UnusedZero, commandOf, Instr.cmd, chOf_val, invOf_toNat, twos16_valueOf]

/-- The fields of a word that decodes are those of the command's record, and the command fits them. -/
theorem decode_inv {w : Word} {i : Instr} (h : decode w = .ok i) : i.wellFormed = true ∧ HasFields w i.cmd := by
  obtain ⟨op, hw, rfl⟩ := (decode_eq_ok_iff w i).mp h
  exact ⟨commandOf_wellFormed w op, hw.hasFields⟩

/-! ### Encoder and decoder -/

theorem HasFields.decode_eq {i : Instr} (hi : i.wellFormed = true) {w : Word} (hw : HasFields w i.cmd) :
    decode w = .ok i := by
  cases i with
  | enc inv value => exact Laws.DecodesFromFields.enc inv value hi w hw
  | dec inv on off => exact Laws.DecodesFromFields.dec inv on off hi w hw
  | setd ch inv value => exact Laws.DecodesFromFields.setd ch inv value hi w hw
  | getd ch inv => exact Laws.DecodesFromFields.getd ch inv hi w hw
  | cfg frequency => exact Laws.DecodesFromFields.cfg frequency hi w hw

/-- Settles O1: the encoder's word has the fields of the command's record. -/
theorem decodeEncodeAgree : Obligations.DecodeEncodeAgree := by
  unfold Obligations.DecodeEncodeAgree
  exact fun i h => HasFields.decode_eq h (Instr.encode_hasFields h)

/-- Settles O2: a legal word and the encoder's word have the fields of the same record. -/
theorem encodeDecodeAgree : Obligations.EncodeDecodeAgree := by
  unfold Obligations.EncodeDecodeAgree
  intro w i h
  obtain ⟨wellFormed, fields⟩ := decode_inv h
  exact ⟨wellFormed, (Instr.encode_hasFields wellFormed).unique fields⟩

/-- Settles O6, by evaluating the decoder. -/
theorem writtenWordsDecode : Obligations.WrittenWordsDecode := by
  unfold Obligations.WrittenWordsDecode
  exact ⟨rfl, rfl, rfl, rfl, rfl, rfl⟩

/-! ### The pseudocode and the opcode table (rule R68) -/

theorem exists_wordOf_iff_pseudocode (w : Word) :
    (∃ op, WordOf w op) ↔
      (field w 3 0 = 1 ∨ field w 3 0 = 2 ∨ field w 3 0 = 3 ∨ field w 3 0 = 4 ∨ field w 3 0 = 5) ∧
      field w 15 9 = 0 ∧ field w 63 48 = 0 ∧
      (field w 3 0 = 1 → field w 7 4 = 0 ∧ field w 47 32 = 0) ∧
      (field w 3 0 = 2 → field w 7 4 = 0) ∧
      (field w 3 0 = 3 → field w 47 32 = 0) ∧
      (field w 3 0 = 4 → field w 31 16 = 0 ∧ field w 47 32 = 0) ∧
      (field w 3 0 = 5 → field w 7 4 = 0 ∧ field w 8 8 = 0 ∧ field w 47 32 = 0) := by
  constructor
  · rintro ⟨op, opcode, rsv0, rsv1, unused⟩
    cases op <;> simp_all [Op.code, UnusedZero]
  · rintro ⟨opcode, rsv0, rsv1, enc, dec, setd, getd, cfg⟩
    rcases opcode with h | h | h | h | h
    · exact ⟨.enc, h, rsv0, rsv1, enc h⟩
    · exact ⟨.dec, h, rsv0, rsv1, dec h⟩
    · exact ⟨.setd, h, rsv0, rsv1, setd h⟩
    · exact ⟨.getd, h, rsv0, rsv1, getd h⟩
    · exact ⟨.cfg, h, rsv0, rsv1, cfg h⟩

theorem field_and (v w : Word) (hi lo : Nat) : field (v &&& w) hi lo = field v hi lo &&& field w hi lo := by
  simp only [field, BitVec.toNat_and, Nat.and_div_two_pow, Nat.and_mod_two_pow]

theorem field_ofNat (n hi lo : Nat) : field (BitVec.ofNat 64 n) hi lo = n % 2 ^ 64 / 2 ^ lo % 2 ^ (hi + 1 - lo) := by
  simp [field]

/-- A mask that is all ones on a field keeps the field. -/
theorem field_and_ones (w : Word) (hi lo : Nat) : field w hi lo &&& (2 ^ (hi + 1 - lo) - 1) = field w hi lo := by
  rw [Nat.and_two_pow_sub_one_eq_mod, Nat.mod_eq_of_lt (field_lt w hi lo)]

/-- A row of the table covers exactly the legal words of its operation: field by field, its mask is all ones where the
field is OP, reserved or unused, and zero where it is an operand. -/
theorem wordOf_iff_of_mem_opcodeTable {r : OpRow} (h : r ∈ opcodeTable) (w : Word) :
    w &&& r.mask = r.pattern ↔ WordOf w r.op := by
  have op : field w 3 0 &&& 15 = field w 3 0 := field_and_ones w 3 0
  have ch : field w 7 4 &&& 15 = field w 7 4 := field_and_ones w 7 4
  have inv : field w 8 8 &&& 1 = field w 8 8 := field_and_ones w 8 8
  have rsv0 : field w 15 9 &&& 127 = field w 15 9 := field_and_ones w 15 9
  have a : field w 31 16 &&& 65535 = field w 31 16 := field_and_ones w 31 16
  have b : field w 47 32 &&& 65535 = field w 47 32 := field_and_ones w 47 32
  have rsv1 : field w 63 48 &&& 65535 = field w 63 48 := field_and_ones w 63 48
  simp only [opcodeTable, List.mem_cons, List.not_mem_nil, or_false] at h
  rcases h with rfl | rfl | rfl | rfl | rfl <;>
    simp [word_eq_iff_fields, field_and, field_ofNat, op, ch, inv, rsv0, a, b, rsv1, wordOf_iff, Op.code, UnusedZero] <;>
    tauto

theorem exists_row (op : Op) : ∃ r ∈ opcodeTable, r.op = op := by
  cases op <;> simp [opcodeTable]

theorem exists_wordOf_iff_table (w : Word) :
    (∃ op, WordOf w op) ↔ ∃ r ∈ opcodeTable, r.op.code = field w 3 0 ∧ w &&& r.mask = r.pattern := by
  constructor
  · rintro ⟨op, h⟩
    obtain ⟨r, hr, rfl⟩ := exists_row op
    exact ⟨r, hr, h.opcode.symm, (wordOf_iff_of_mem_opcodeTable hr w).mpr h⟩
  · rintro ⟨r, hr, -, h⟩
    exact ⟨r.op, (wordOf_iff_of_mem_opcodeTable hr w).mp h⟩

/-- Settles O3: the pseudocode, and the table's rows, both say which words are legal words of an operation. -/
theorem decoderFollowsPseudocodeAndTable : Obligations.DecoderFollowsPseudocodeAndTable := by
  unfold Obligations.DecoderFollowsPseudocodeAndTable
  intro w
  refine ⟨(exists_decode_iff w).trans (exists_wordOf_iff_pseudocode w), fun i h => ?_,
    (exists_decode_iff w).trans (exists_wordOf_iff_table w)⟩
  obtain ⟨-, fields⟩ := decode_inv h
  exact ⟨fields.op.symm, fields.ch.symm, fields.inv.symm, fields.a.symm, fields.b.symm⟩

/-! ### Operands and opcodes -/

theorem sext16_toNat (x : Half) : sext16 x.toNat = x.toInt := by
  unfold sext16
  rw [BitVec.toInt_eq_toNat_cond]
  split <;> split <;> omega

theorem invOf_eq_bit (w : Word) : invOf w = w.getLsbD 8 := by
  simp [invOf, field_eq_iff]

theorem valueOf_eq_toInt (w : Word) : valueOf w = (w.extractLsb' 16 16).toInt := by
  rw [valueOf, field_eq_extract, sext16_toNat]

/-- Settles O4, one operation at a time. -/
theorem operandsAssembledFromFields : Obligations.OperandsAssembledFromFields := by
  unfold Obligations.OperandsAssembledFromFields
  intro w i h
  obtain ⟨op, -, rfl⟩ := (decode_eq_ok_iff w i).mp h
  have ch := (chOf_val w).trans (field_eq_extract w 7 4)
  have a := field_eq_extract w 31 16
  have b := field_eq_extract w 47 32
  cases op with
  | enc => exact ⟨invOf_eq_bit w, valueOf_eq_toInt w⟩
  | dec => exact ⟨invOf_eq_bit w, a, b⟩
  | setd => exact ⟨ch, invOf_eq_bit w, valueOf_eq_toInt w⟩
  | getd => exact ⟨ch, invOf_eq_bit w⟩
  | cfg => exact a

theorem decode_of_reserved {w : Word} (h : field w 3 0 = 0 ∨ 6 ≤ field w 3 0) :
    decode w = .error .reservedOpcode := by
  have unnamed : opOf (field w 3 0) = none := by
    refine Option.eq_none_iff_forall_ne_some.mpr fun op hop => ?_
    have := (opOf_eq_some_iff _ _).mp hop
    cases op <;> simp only [Op.code] at this <;> omega
  simp [decode, unnamed]

/-- Settles O5: OP is the low four bits, and `opOf` names no operation for a reserved value. -/
theorem opcodeValues : Obligations.OpcodeValues := by
  unfold Obligations.OpcodeValues
  refine ⟨fun i h => BitVec.eq_of_toNat_eq ?_, fun w h => decode_of_reserved ?_⟩
  · rw [← field_eq_extract _ 3 0, (Instr.encode_hasFields h).op]
    cases i <;> rfl
  · rw [field_eq_extract w 3 0]
    exact h.imp (fun h => by rw [h]; rfl) BitVec.le_def.mp

end Sys2Proof
end

section
/-! PROOFS. The packed response word and words carried as bytes (O7), and the operand ranges of the assembler (O8). -/

namespace Sys2Proof.Machine

/-! ### Words carried as bytes (rule R66) -/

theorem wordBytes_eq_extract (w : Word) : wordBytes w = (List.range 8).map fun k => w.extractLsb' (8 * k) 8 := by
  refine List.map_congr_left fun k _ => ?_
  rw [BitVec.extractLsb', Nat.shiftRight_eq_div_pow, Nat.pow_mul]

/-- The first command of the bytes of a word is the word's. -/
theorem decodeBytes_wordBytes (w : Word) (rest : List Byte) :
    decodeBytes (wordBytes w ++ rest) = (decode w).map fun i => (i, rest) := by
  have carried := bytesWord_bytes w.toNat w.isLt
  rw [BitVec.ofNat_toNat, BitVec.setWidth_eq] at carried
  rw [wordBytes_eq]
  simp only [List.cons_append, List.nil_append, decodeBytes, carried]
  cases decode w <;> rfl

theorem Response.pack_fields (r : Response) :
    r.pack.extractLsb' 0 8 = r.status.code ∧ r.pack.extractLsb' 8 8 = 0#8 ∧ r.pack.extractLsb' 16 16 = r.r0 ∧
      r.pack.extractLsb' 32 16 = r.r1 ∧ r.pack.extractLsb' 48 16 = 0#16 := by
  have status := r.status.code.isLt
  have r0 := r.r0.isLt
  have r1 := r.r1.isLt
  refine ⟨?_, ?_, ?_, ?_, ?_⟩ <;> apply BitVec.eq_of_toNat_eq <;>
    simp only [BitVec.extractLsb'_toNat, Nat.shiftRight_eq_div_pow, Response.pack_toNat, BitVec.toNat_ofNat] <;> omega

/-- Settles O7. -/
theorem responseWordAndByteOrder : Obligations.ResponseWordAndByteOrder := by
  unfold Obligations.ResponseWordAndByteOrder
  refine ⟨Response.pack_fields, fun r => wordBytes_eq_extract r.pack, fun w rest => ?_⟩
  rw [← wordBytes_eq_extract, decodeBytes_wordBytes]
  cases decode w <;> rfl

/-! ### The assembler's operand ranges (rule R69) -/

theorem emit_eq_some_iff (i : Instr) (w : Word) : emit i = some w ↔ i.wellFormed = true ∧ w = encode i := by
  simp only [emit, Option.ite_none_right_eq_some, Option.some.injEq, eq_comm (a := encode i)]

theorem valueEncodable_iff (v : Int) : valueEncodable v = true ↔ -32768 ≤ v ∧ v ≤ 32767 := by simp [valueEncodable]

theorem halfEncodable_toNat_iff (n : Int) : halfEncodable n.toNat = true ↔ n ≤ 65535 := by
  simp [halfEncodable]

theorem channelOf_eq_some_iff (n : Int) (ch : Channel) : channelOf n = some ch ↔ (ch.val : Int) = n := by
  have := ch.isLt
  unfold channelOf
  split
  · simp only [Option.some.injEq, Fin.ext_iff]
    omega
  · simp only [reduceCtorEq, false_iff]
    omega

theorem assembleOperands_enc_iff (inv : Bool) (value : Int) (w : Word) :
    assembleOperands .enc inv [value] = some w ↔ -32768 ≤ value ∧ value ≤ 32767 ∧ w = encode (.enc inv value) := by
  simp only [assembleOperands, emit_eq_some_iff, Instr.wellFormed, valueEncodable_iff, and_assoc]

theorem assembleOperands_dec_iff (inv : Bool) (on off : Int) (w : Word) :
    assembleOperands .dec inv [on, off] = some w ↔
      0 ≤ on ∧ on ≤ 65535 ∧ 0 ≤ off ∧ off ≤ 65535 ∧ w = encode (.dec inv on.toNat off.toNat) := by
  by_cases h : 0 ≤ on ∧ 0 ≤ off
  · obtain ⟨hon, hoff⟩ := h
    simp [assembleOperands, emit_eq_some_iff, Instr.wellFormed, halfEncodable_toNat_iff, hon, hoff, and_assoc]
  · simp only [assembleOperands, if_neg h, reduceCtorEq, false_iff]
    rintro ⟨hon, -, hoff, -⟩
    exact h ⟨hon, hoff⟩

theorem assembleOperands_setd_iff (inv : Bool) (n value : Int) (w : Word) :
    assembleOperands .setd inv [n, value] = some w ↔
      ∃ ch : Channel, (ch.val : Int) = n ∧ -32768 ≤ value ∧ value ≤ 32767 ∧ w = encode (.setd ch inv value) := by
  simp only [assembleOperands, Option.bind_eq_some_iff, channelOf_eq_some_iff, emit_eq_some_iff, Instr.wellFormed,
    valueEncodable_iff, and_assoc]

theorem assembleOperands_getd_iff (inv : Bool) (n : Int) (w : Word) :
    assembleOperands .getd inv [n] = some w ↔ ∃ ch : Channel, (ch.val : Int) = n ∧ w = encode (.getd ch inv) := by
  simp only [assembleOperands, Option.bind_eq_some_iff, channelOf_eq_some_iff, emit_eq_some_iff, Instr.wellFormed,
    true_and]

theorem assembleOperands_cfg_iff (inv : Bool) (frequency : Int) (w : Word) :
    assembleOperands .cfg inv [frequency] = some w ↔
      inv = false ∧ 0 ≤ frequency ∧ frequency ≤ 65535 ∧ w = encode (.cfg frequency.toNat) := by
  cases inv with
  | true => simp [assembleOperands]
  | false =>
    by_cases h : 0 ≤ frequency <;>
      simp [assembleOperands, emit_eq_some_iff, Instr.wellFormed, halfEncodable_toNat_iff, h]

/-- Settles O8, one operation at a time. -/
theorem assemblerRefusesOperandsOutOfRange : Obligations.AssemblerRefusesOperandsOutOfRange := by
  unfold Obligations.AssemblerRefusesOperandsOutOfRange
  exact fun inv x y w => ⟨assembleOperands_enc_iff inv x w, assembleOperands_dec_iff inv x y w,
    assembleOperands_setd_iff inv x y w, assembleOperands_getd_iff inv x w, assembleOperands_cfg_iff inv x w⟩

end Sys2Proof.Machine
end

section
/-! PROOFS. The codec as two statements, which values the encoder gives a pair and which pairs the decoder gives a value
(O27, O28, O29), and with them what ENC and DEC answer (O23 to O26). -/

namespace Sys2Proof.Machine

/-! ### The encoder and the decoder by the pairs of duty values (rules R80 and R81) -/

theorem complementIf_false (v : Nat) : complementIf false v = v := rfl
theorem complementIf_true (v : Nat) : complementIf true v = 4095 - v := rfl

theorem encodeDuty_eq_some_iff (v : Int) (inv : Bool) (p : RegPair) :
    encodeDuty v inv = some p ↔ (0 ≤ v ∧ v ≤ 4095) ∧ pairOf (complementIf inv v.toNat) = p := by
  constructor
  · intro h
    have range := encodeDuty_range h
    exact ⟨range, Option.some.inj ((encodeDuty_eq inv range).symm.trans h)⟩
  · rintro ⟨range, rfl⟩
    exact encodeDuty_eq inv range

theorem decodeDuty_eq_some_iff (on off : Nat) (inv : Bool) (v : Nat) :
    decodeDuty on off inv = some v ↔ ∃ n ≤ 4095, pairOf n = ⟨on, off⟩ ∧ complementIf inv n = v := by
  constructor
  · intro h
    unfold decodeDuty at h
    split at h
    case isTrue zero =>
      obtain ⟨rfl, rfl⟩ := zero
      exact ⟨0, by omega, pairOf_zero, Option.some.inj h⟩
    split at h
    case isTrue max =>
      obtain ⟨rfl, rfl⟩ := max
      exact ⟨4095, by omega, pairOf_max, Option.some.inj h⟩
    split at h
    case isTrue mid =>
      obtain ⟨rfl, low, high⟩ := mid
      exact ⟨off, by omega, pairOf_mid (by omega) (by omega), Option.some.inj h⟩
    cases h
  · rintro ⟨n, hn, pair, rfl⟩
    have decoded := decodeDuty_pairOf (inv := inv) hn
    rwa [pair] at decoded

/-- Each flag's encoder reaches the pair of every duty value, and no other. -/
theorem exists_encodeDuty_iff (inv : Bool) (p : RegPair) :
    (∃ v : Int, encodeDuty v inv = some p) ↔ ∃ n ≤ 4095, pairOf n = p := by
  simp only [encodeDuty_eq_some_iff]
  constructor
  · rintro ⟨v, range, pair⟩
    exact ⟨_, complementIf_le (by omega), pair⟩
  · rintro ⟨n, hn, pair⟩
    have range := complementIf_le (inv := inv) hn
    refine ⟨complementIf inv n, by omega, ?_⟩
    rwa [Int.toNat_natCast, complementIf_complementIf hn]

theorem decodeDuty_isSome_iff (on off : Nat) (inv : Bool) :
    (decodeDuty on off inv).isSome = true ↔ ∃ n ≤ 4095, pairOf n = ⟨on, off⟩ := by
  simp only [Option.isSome_iff_exists, decodeDuty_eq_some_iff]
  exact ⟨fun ⟨_, n, hn, pair, _⟩ => ⟨n, hn, pair⟩, fun ⟨n, hn, pair⟩ => ⟨_, n, hn, pair, rfl⟩⟩

/-- The pairs of the duty values are the three patterns of rule R83. -/
theorem exists_pairOf_iff (p : RegPair) :
    (∃ n ≤ 4095, pairOf n = p) ↔ p = ⟨0, 4096⟩ ∨ p = ⟨4096, 0⟩ ∨ ∃ v, 1 ≤ v ∧ v ≤ 4094 ∧ p = ⟨0, v⟩ := by
  constructor
  · intro h
    obtain ⟨v, encoded⟩ := (exists_encodeDuty_iff false p).mpr h
    exact encodeDuty_pattern encoded
  · rintro (rfl | rfl | ⟨v, low, high, rfl⟩)
    · exact ⟨0, by omega, pairOf_zero⟩
    · exact ⟨4095, by omega, pairOf_max⟩
    · exact ⟨v, by omega, pairOf_mid (by omega) (by omega)⟩

/-- Decoding with the flag of the encoding undoes it (rule R82). -/
theorem decodeDuty_of_encodeDuty {v : Int} {inv : Bool} {p : RegPair} (h : encodeDuty v inv = some p) :
    decodeDuty p.on p.off inv = some v.toNat := by
  have range := encodeDuty_range h
  rw [decodeDuty_encoded inv h, complementIf_complementIf (by omega)]

/-- Settles O27: DEC reads its operands off the response of ENC, whose halves hold the pair unchanged. -/
theorem codecRoundTrip : Obligations.CodecRoundTrip := by
  unfold Obligations.CodecRoundTrip
  intro inv value hv
  have encoded := encodeDuty_eq (v := value) inv (by omega)
  have decoded := decodeDuty_of_encodeDuty encoded
  rw [Int.toNat_natCast] at decoded
  refine ⟨⟨_, encoded, decoded⟩, fun s => ⟨_, _, (Ran.enc encoded).exec, rfl, ?_⟩⟩
  rw [onHalf_toNat encoded, offHalf_toNat encoded]
  exact (Ran.dec decoded).exec

/-- Settles O28: the round trip makes the encoder injective. -/
theorem encoderImage : Obligations.EncoderImage := by
  unfold Obligations.EncoderImage
  intro inv
  refine ⟨fun p => (exists_encodeDuty_iff inv p).trans (exists_pairOf_iff p), fun v v' p hv hv' => ?_,
    fun p => (decodeDuty_isSome_iff p.on p.off inv).trans (exists_encodeDuty_iff inv p).symm⟩
  have same := (decodeDuty_of_encodeDuty hv).symm.trans (decodeDuty_of_encodeDuty hv')
  have range := encodeDuty_range hv
  have range' := encodeDuty_range hv'
  rw [Option.some.injEq] at same
  omega

/-- Settles O29. -/
theorem invertIsComplement : Obligations.InvertIsComplement := by
  unfold Obligations.InvertIsComplement
  refine ⟨fun v low high => ?_, fun on off v => ?_, rfl, rfl⟩
  · have complement : complementIf true v.toNat = complementIf false (4095 - v).toNat := by
      rw [complementIf_true, complementIf_false]
      omega
    rw [encodeDuty_eq true ⟨low, high⟩, encodeDuty_eq false (by omega), complement]
  · simp only [decodeDuty_eq_some_iff]
    constructor
    · rintro ⟨n, hn, pair, rfl⟩
      exact ⟨hn, n, hn, pair, rfl⟩
    · rintro ⟨hv, n, hn, pair, complement⟩
      have value : n = v := by
        rw [complementIf_true] at complement
        omega
      exact ⟨n, hn, pair, value⟩

/-! ### What ENC and DEC answer (rules R85 and R86) -/

/-- The pair of a duty value in its two halves, as rule R85 hands it over. -/
theorem response_pairOf {n : Nat} (h : n ≤ 4095) :
    (⟨.ok, (pairOf n).onHalf, (pairOf n).offHalf⟩ : Response) =
      if (n : Int) = 0 then ⟨.ok, 0, 4096⟩
      else if (n : Int) = 4095 then ⟨.ok, 4096, 0⟩
      else ⟨.ok, 0, BitVec.ofInt 16 n⟩ := by
  split
  · obtain rfl : n = 0 := by omega
    rfl
  split
  · obtain rfl : n = 4095 := by omega
    rfl
  · rw [pairOf_mid (by omega) (by omega), BitVec.ofInt_natCast]
    rfl

/-- Settles O23. -/
theorem encAnswersPair : Obligations.EncAnswersPair := by
  unfold Obligations.EncAnswersPair
  rintro inv value x s low high rfl
  have complement : (if inv then 4095 - value else value) = (complementIf inv value.toNat : Int) := by
    cases inv with
    | false =>
      rw [complementIf_false, if_neg Bool.false_ne_true]
      omega
    | true =>
      rw [complementIf_true, if_pos rfl]
      omega
  rw [complement, ← response_pairOf (complementIf_le (by omega))]
  exact (Ran.enc (encodeDuty_eq inv ⟨low, high⟩)).exec

/-- Settles O24. -/
theorem encRejectsOutOfRange : Obligations.EncRejectsOutOfRange := by
  unfold Obligations.EncRejectsOutOfRange
  intro inv value s out
  exact (Ran.encOut ((encodeDuty_eq_none_iff value inv).mpr out)).exec

/-- Settles O25: the pattern is the pair of its value before the complement. -/
theorem decAnswersValue : Obligations.DecAnswersValue := by
  unfold Obligations.DecAnswersValue
  intro inv on off raw s pattern
  have pair : raw ≤ 4095 ∧ pairOf raw = ⟨on, off⟩ := by
    obtain ⟨rfl, rfl, rfl⟩ | ⟨rfl, rfl, rfl⟩ | ⟨rfl, low, high, rfl⟩ := pattern
    · exact ⟨by omega, pairOf_zero⟩
    · exact ⟨by omega, pairOf_max⟩
    · exact ⟨by omega, pairOf_mid (by omega) (by omega)⟩
  obtain ⟨range, pair⟩ := pair
  exact (Ran.dec ((decodeDuty_eq_some_iff on off inv _).mpr ⟨raw, range, pair, rfl⟩)).exec

/-- Settles O26: the decoder gives a value on no pair outside the three patterns. -/
theorem decRejectsOtherPatterns : Obligations.DecRejectsOtherPatterns := by
  unfold Obligations.DecRejectsOtherPatterns
  intro inv on off s hon hoff notZero notMax notMid
  have rejected : decodeDuty on off inv = none := by
    rw [← Option.not_isSome_iff_eq_none, decodeDuty_isSome_iff, exists_pairOf_iff]
    simp only [RegPair.mk.injEq]
    rintro (zero | max | ⟨v, low, high, rfl, rfl⟩)
    · exact notZero zero
    · exact notMax max
    · exact notMid ⟨rfl, low, high⟩
  exact ⟨_, (Ran.decOther rejected).exec, rfl, Nat.mod_eq_of_lt (by omega), Nat.mod_eq_of_lt (by omega)⟩

end Sys2Proof.Machine
end

section
/-! PROOFS. The checks that SETD and CFG make before the bus (O34, O41), the channel addresses (O30), the prescale value as
a rounded quotient (O40), and where H ends when a command answers BusFault (O19). -/

namespace Sys2Proof.Machine

/-! ### Checks before the bus, and the channel addresses -/

/-- Settles O30. -/
theorem channelAddresses : Obligations.ChannelAddresses := by
  unfold Obligations.ChannelAddresses
  exact fun ch => ⟨rfl, isBlockAddr_chaddr ch⟩

/-- Settles O34: the encoder gives a pair exactly to the values in range, and SETD reads CONFIGURED only after that. -/
theorem setdChecksBeforeTheBus : Obligations.SetdChecksBeforeTheBus := by
  unfold Obligations.SetdChecksBeforeTheBus
  refine fun ch inv value s => ⟨fun out => ?_, fun low high unconfigured => ?_⟩
  · exact (Ran.setdOut ((encodeDuty_eq_none_iff value inv).mpr out)).exec
  · exact (Ran.setdUnconfigured (encodeDuty_eq inv ⟨low, high⟩) unconfigured).exec

/-- Settles O41. -/
theorem cfgRejectsLowFrequency : Obligations.CfgRejectsLowFrequency := by
  unfold Obligations.CfgRejectsLowFrequency
  exact fun f s low => (Ran.cfgOut low).exec

/-! ### The prescale value (rule R91) -/

/-- `q` is the prescale value of the frequencies for which the rounded quotient lies between `q` and `q + 1`. -/
theorem prescale_eq_of_bounds {f q : Nat} (low : q * (8192 * f) ≤ 50000000 + 4096 * f)
    (high : 50000000 + 4096 * f < (q + 1) * (8192 * f)) : prescale f = q :=
  (prescale_eq f).trans (Nat.div_eq_of_lt_le low high)

/-- The prescale value is within one half of the exact quotient, both sides times 2 * TICKS * f. -/
theorem prescale_within_half {f : Nat} (hf : 0 < f) :
    2 * (4096 * f * prescale f) ≤ 50000000 + 4096 * f ∧ 50000000 ≤ 2 * (4096 * f * prescale f) + 4096 * f := by
  have scaled : 2 * (4096 * f * prescale f) = (50000000 + 4096 * f) / (8192 * f) * (8192 * f) := by
    rw [prescale_eq]
    ring
  have low := Nat.div_mul_le_self (50000000 + 4096 * f) (8192 * f)
  have high := Nat.lt_div_mul_add (a := 50000000 + 4096 * f) (b := 8192 * f) (by omega)
  omega

/-- An exact half would make TICKS divide 2 * OSC_HZ. -/
theorem prescale_ne_half (f k : Nat) : 50000000 ≠ (2 * k + 1) * (4096 * f) := by
  intro half
  have divides : 4096 ∣ 50000000 := half ▸ Dvd.intro _ (Nat.mul_left_comm _ _ _)
  exact absurd divides (by decide)

/-- CFG rejects a positive frequency only for its prescale value. -/
theorem lt_prescale_of_low {f : Nat} (hf : 1 ≤ f) (low : f ≤ 23) : 255 < prescale f := by
  have rejected := (frequencyRejected_iff f).mpr low
  simp only [frequencyRejected, Bool.or_eq_true, decide_eq_true_eq] at rejected
  exact rejected.resolve_left (by omega)

/-- Settles O40: the intervals are where the rounded quotient lies between two neighbouring integers. -/
theorem prescaleRoundsExactly : Obligations.PrescaleRoundsExactly := by
  unfold Obligations.PrescaleRoundsExactly
  refine ⟨fun f hf => ⟨prescale_eq f, prescale_within_half hf⟩, fun f k _ => prescale_ne_half f k,
    rfl, rfl, rfl, rfl, rfl, rfl, rfl, rfl, rfl, fun f low high => ?_, fun f low high => ?_, fun f low => ?_,
    fun _ => lt_prescale_of_low⟩
  all_goals exact prescale_eq_of_bounds (by omega) (by omega)

/-! ### Where H ends when a command answers (rules R97, R98 and R113) -/

/-- A command that ran from `s` ended in `t` with an answer other than BusFault, and every event it appended is ok. -/
def EndedWithoutFault (s t : State) : Prop :=
  ∃ (r : Response) (evs : List Event), t.responses = s.responses ++ [r] ∧ r.status ≠ .busFault ∧
    t.history = s.history ++ evs ∧ ∀ e ∈ evs, e.outcome = .ok

/-- A command that ran from `s` ended in `t` with `(BusFault, 0, 0)`, and of the events it appended the last is a fault
and the others are ok. -/
def EndedAtFault (s t : State) : Prop :=
  t.responses = s.responses ++ [⟨.busFault, 0, 0⟩] ∧
    ∃ (pre : List Event) (k : EventKind), t.history = s.history ++ (pre ++ [⟨k, .fault⟩]) ∧ ∀ e ∈ pre, e.outcome = .ok

section ends
variable {s u : State} {status : Status} (r0 r1 : Half) (responses : u.responses = s.responses)
include responses

theorem endedWithoutFault_of_respond {evs : List Event} (hs : status ≠ .busFault) (history : u.history = s.history ++ evs)
    (ok : ∀ e ∈ evs, e.outcome = .ok) : EndedWithoutFault s (u.respond status r0 r1) :=
  ⟨⟨status, r0, r1⟩, evs, congrArg (· ++ [_]) responses, hs, history, ok⟩

/-- A command that runs no transaction appends nothing. -/
theorem endedWithoutFault_of_silent (hs : status ≠ .busFault) (history : u.history = s.history) :
    EndedWithoutFault s (u.respond status r0 r1) :=
  endedWithoutFault_of_respond r0 r1 responses hs (history.trans (List.append_nil _).symm) (List.forall_mem_nil _)

/-- A command whose one transaction is ok. -/
theorem endedWithoutFault_of_one {k : EventKind} {o : TxOutcome} (hs : status ≠ .busFault)
    (history : u.history = s.history ++ [⟨k, o⟩]) (ok : o = .ok) : EndedWithoutFault s (u.respond status r0 r1) :=
  endedWithoutFault_of_respond r0 r1 responses hs history (List.forall_mem_singleton.mpr ok)

/-- A command whose first transaction faults. -/
theorem endedAtFault_of_one {k : EventKind} {o : TxOutcome} (history : u.history = s.history ++ [⟨k, o⟩])
    (fault : o = .fault) : EndedAtFault s (u.respond .busFault 0 0) :=
  ⟨congrArg (· ++ [_]) responses, [], k, fault ▸ history, List.forall_mem_nil _⟩

end ends

/-- A CFG one of whose writes faults. -/
theorem endedAtFault_of_cfgWrite {s : State} (f : Nat) {k : Nat} (hk : k < 4)
    (hf : ∀ j ≤ k, (s.drawAt j).fault = false) (fault : (s.drawAt (k + 1)).fault = true) :
    EndedAtFault s (cfgFaulted (cfgWrites f s (k + 1))) := by
  obtain ⟨last, -, history⟩ := cfgWrites_history_of_fault (f := f) hk fault hf
  have responses : (cfgWrites f s (k + 1)).responses = s.responses := cfgWrites_responses (by omega)
  rw [← cfgFaulted_history, List.append_assoc] at history
  exact ⟨(cfgFaulted_responses _).trans (congrArg (· ++ [_]) responses), _, last, history,
    List.forall_mem_map.mpr fun _ _ => rfl⟩

/-- A CFG none of whose transactions faults. -/
theorem endedWithoutFault_of_cfg {s : State} (f : Nat) (hf : ∀ k < 5, (s.drawAt k).fault = false) :
    EndedWithoutFault s (((cfgTransacted f s).setConfigured true).respond .ok (BitVec.ofNat 16 (prescale f))
      ((cfgOld s).setWidth 16)) :=
  endedWithoutFault_of_respond _ _ (cfgWrites_responses (n := 4) (by omega)) (by decide) (cfgTransacted_history f hf)
    (by simp)

/-- Every command answers BusFault at its first fault, and runs no further. -/
theorem Ran.endedWithoutFault_or_atFault {i : Instr} {s t : State} (hr : Ran i s t) :
    EndedWithoutFault s t ∨ EndedAtFault s t := by
  cases hr with
  | encOut _ | enc _ | decOther _ | dec _ | setdOut _ | setdUnconfigured _ _ | getdUnconfigured _ | cfgOut _ =>
    exact .inl (endedWithoutFault_of_silent _ _ rfl (by decide) rfl)
  | setd _ _ h0 | getdOther _ h0 _ _ | getd _ h0 _ _ =>
    exact .inl (endedWithoutFault_of_one _ _ rfl (by decide) rfl (State.txOutcome_ok h0))
  | setdFault _ _ h0 | getdFault _ h0 => exact .inr (endedAtFault_of_one rfl rfl (State.txOutcome_fault h0))
  | cfgReadFault _ h0 => exact .inr (endedAtFault_of_one (cfgRead_responses s) (cfgRead_history s) (if_pos h0))
  | @cfgSleepFault f _ _ h0 h1 =>
    exact .inr (endedAtFault_of_cfgWrite f (k := 0) (by omega) (fun j hj => Nat.le_zero.mp hj ▸ h0) h1)
  | @cfgPrescaleFault f _ _ h0 h1 h2 =>
    exact .inr (endedAtFault_of_cfgWrite f (k := 1) (by omega) (fun j hj => by interval_cases j <;> assumption) h2)
  | @cfgRestoreFault f _ _ h0 h1 h2 h3 =>
    exact .inr (endedAtFault_of_cfgWrite f (k := 2) (by omega) (fun j hj => by interval_cases j <;> assumption) h3)
  | @cfgEnableFault f _ _ h0 h1 h2 h3 h4 =>
    exact .inr (endedAtFault_of_cfgWrite f (k := 3) (by omega) (fun j hj => by interval_cases j <;> assumption) h4)
  | @cfg f _ _ h0 h1 h2 h3 h4 =>
    exact .inl (endedWithoutFault_of_cfg f (fun j hj => by interval_cases j <;> assumption))

/-- Settles O19: of the two ways a command can end, each refutes the premise of the other's clause. -/
theorem busFaultMeansLastTransactionFaulted : Obligations.BusFaultMeansLastTransactionFaulted := by
  unfold Obligations.BusFaultMeansLastTransactionFaulted
  intro i s t h
  rcases (ran_of_exec h).endedWithoutFault_or_atFault with
    ⟨r, evs, responses, status, history, ok⟩ | ⟨responses, pre, k, history, ok⟩
  · exact ⟨r, evs, responses, history, fun fault => absurd fault status, fun _ => ok⟩
  · exact ⟨⟨.busFault, 0, 0⟩, _, responses, history, fun _ => ⟨rfl, rfl, pre, k, rfl, ok⟩,
      fun status => absurd rfl status⟩

end Sys2Proof.Machine
end

section
/-! PROOFS. Errors: illegal words (O10), the status codes and the order in which errors are reported (O22, O18), and that
nothing reaches the bus before a CFG (O50). -/

namespace Sys2Proof.Machine

/-! ### Illegal words (rules R63, R64 and R115) -/

theorem bit8_iff_field (w : Word) : w.getLsbD 8 = true ↔ field w 8 8 = 1 := by
  rw [← invOf_eq_bit, invOf, decide_eq_true_iff]

/-- Settles O10: a word that decodes has the fields of rule R68's pseudocode, which no disjunct of the hypothesis
allows. -/
theorem illegalWordsAnswerIllegalCommand : Obligations.IllegalWordsAnswerIllegalCommand := by
  unfold Obligations.IllegalWordsAnswerIllegalCommand
  intro s w rest h illegal
  cases hw : decode w with
  | error e => exact step_of_illegal h hw
  | ok i =>
    have legal := (exists_wordOf_iff_pseudocode w).mp ((exists_decode_iff w).mp ⟨i, hw⟩)
    have op : (w.extractLsb' 0 4).toNat = field w 3 0 := (field_eq_extract w 3 0).symm
    have ch : (w.extractLsb' 4 4).toNat = field w 7 4 := (field_eq_extract w 7 4).symm
    have rsv0 : (w.extractLsb' 9 7).toNat = field w 15 9 := (field_eq_extract w 15 9).symm
    have a : (w.extractLsb' 16 16).toNat = field w 31 16 := (field_eq_extract w 31 16).symm
    have b : (w.extractLsb' 32 16).toNat = field w 47 32 := (field_eq_extract w 47 32).symm
    have rsv1 : (w.extractLsb' 48 16).toNat = field w 63 48 := (field_eq_extract w 63 48).symm
    simp only [← BitVec.toNat_inj, ne_eq, op, ch, rsv0, a, b, rsv1, bit8_iff_field, BitVec.reduceToNat] at illegal
    omega

/-! ### The statuses of each command (rule R110) -/

theorem Status.code_lt (e : Status) : e.code.toNat < 0x06 := by
  cases e <;> decide

/-- Settles O22, one end of a command at a time. -/
theorem statusCodes : Obligations.StatusCodes := by
  unfold Obligations.StatusCodes
  refine ⟨⟨rfl, rfl, rfl, rfl, rfl, rfl⟩, fun r => ?_, fun i s t h => ?_, fun s w rest e h hw => ?_⟩
  · obtain ⟨status, -⟩ := r.pack_fields
    rw [status]
    exact r.status.code_lt
  · cases ran_of_exec h with
    | encOut _ | enc _ | decOther _ | dec _ | setdOut _ | setdUnconfigured _ _ | setdFault _ _ _ | setd _ _ _
    | getdUnconfigured _ | getdFault _ _ | getdOther _ _ _ _ | getd _ _ _ _ | cfgOut _ => exact ⟨_, rfl, by simp⟩
    | cfgReadFault _ _ | cfgSleepFault _ _ _ | cfgPrescaleFault _ _ _ _ | cfgRestoreFault _ _ _ _ _
    | cfgEnableFault _ _ _ _ _ _ => exact ⟨⟨.busFault, 0, 0⟩, by simp, by simp⟩
    | @cfg f _ _ _ _ _ _ _ => exact ⟨⟨.ok, BitVec.ofNat 16 (prescale f), (cfgOld s).setWidth 16⟩, by simp, by simp⟩
  · exact ⟨_, step_of_illegal h hw, rfl⟩

/-! ### The order in which errors are reported (rule R116) -/

/-- The checks before the bus let the command through: its operand is in range, and the block is configured if it has
to be. -/
structure PassesChecks (i : Instr) (s : State) : Prop where
  operand : operandRejected i = false
  configured : ¬(needsConfigured i = true ∧ s.configured = false)

/-- The status of a command that passed its checks and whose events `evs` are all ok: the decoder's verdict on the pair
given (DEC) or read (GETD), else OK. -/
def StatusAfterOk (i : Instr) (evs : List Event) (e : Status) : Prop :=
  match i with
  | .dec inv on off => e = if (decodeDuty on off inv).isSome then .ok else .decodeError
  | .getd ch _ =>
    ∃ bytes, evs = [⟨.busRead Config.chipAddr (chaddr ch) 4 bytes, .ok⟩] ∧
      e = if imageBlock bytes then .ok else .decodeError
  | _ => e = .ok

/-- A command that ran from `s` ended in `t` with a status, and neither the chip nor H changed. -/
structure AnsweredSilently (s t : State) (e : Status) : Prop where
  responses : ∃ r0 r1, t.responses = s.responses ++ [⟨e, r0, r1⟩]
  history : t.history = s.history
  chip : t.chip = s.chip

/-- The four ways a command can end, in the order of rule R116. -/
inductive Reported (i : Instr) (s t : State) : Prop
  | range (hi : operandRejected i = true) (ht : AnsweredSilently s t .rangeError)
  | unconfigured (hi : operandRejected i = false) (hn : needsConfigured i = true) (hc : s.configured = false)
    (ht : AnsweredSilently s t .unconfiguredAccess)
  | fault (hi : PassesChecks i s) (ht : EndedAtFault s t)
  | verdict (hi : PassesChecks i s) {r : Response} {evs : List Event} (responses : t.responses = s.responses ++ [r])
    (history : t.history = s.history ++ evs) (ok : ∀ e ∈ evs, e.outcome = .ok) (status : StatusAfterOk i evs r.status)

/-- ENC's range check fails where the encoder gives no pair (rules R80 and R111). -/
theorem operandRejected_enc (inv : Bool) (v : Int) : operandRejected (.enc inv v) = (encodeDuty v inv).isNone := by
  rw [Bool.eq_iff_iff, Option.isNone_iff_eq_none, encodeDuty_eq_none_iff]
  simp [operandRejected]

/-- SETD's range check is ENC's. -/
theorem operandRejected_setd (ch : Channel) (inv : Bool) (v : Int) :
    operandRejected (.setd ch inv v) = (encodeDuty v inv).isNone :=
  operandRejected_enc inv v

/-- Whether a pair is in the encoder's image does not depend on the flag (rule R83). -/
theorem decodeDuty_isSome_flag (on off : Nat) (inv inv' : Bool) :
    (decodeDuty on off inv).isSome = (decodeDuty on off inv').isSome :=
  Bool.eq_iff_iff.mpr ((decodeDuty_isSome_iff on off inv).trans (decodeDuty_isSome_iff on off inv').symm)

section reported
variable {i : Instr} {s : State}

theorem answeredSilently_respond (s : State) (e : Status) (r0 r1 : Half) : AnsweredSilently s (s.respond e r0 r1) e :=
  ⟨⟨r0, r1, rfl⟩, rfl, rfl⟩

theorem passesChecks_of_configured (hi : operandRejected i = false) (hc : s.configured = true) : PassesChecks i s :=
  ⟨hi, fun ⟨_, unconfigured⟩ => by simp [hc] at unconfigured⟩

theorem passesChecks_of_ungated (hi : operandRejected i = false) (hn : needsConfigured i = false) : PassesChecks i s :=
  ⟨hi, fun ⟨gated, _⟩ => by simp [hn] at gated⟩

theorem passesChecks_setd {ch : Channel} {inv : Bool} {v : Int} {p : RegPair} (h : encodeDuty v inv = some p)
    (hc : s.configured = true) : PassesChecks (.setd ch inv v) s :=
  passesChecks_of_configured (by simp [operandRejected_setd, h]) hc

theorem passesChecks_cfg {f : Nat} (h : ¬f ≤ 23) : PassesChecks (.cfg f) s :=
  passesChecks_of_ungated (decide_eq_false h) rfl

/-- A command that passed its checks and ran no transaction. -/
theorem reported_of_silent {e : Status} {r0 r1 : Half} (hi : PassesChecks i s) (status : StatusAfterOk i [] e) :
    Reported i s (s.respond e r0 r1) :=
  .verdict hi (r := ⟨e, r0, r1⟩) rfl (List.append_nil _).symm (List.forall_mem_nil _) status

/-- GETD after an ok read: the status is the decoder's verdict on the bytes that the event holds. -/
theorem reported_of_blockRead {ch : Channel} {inv : Bool} {q : Quad} {e : Status} {r0 r1 : Half}
    (hc : s.configured = true) (h0 : (s.drawAt 0).fault = false) (hq : s.answerBytes s.draw (chaddr ch) = q)
    (he : e = if (decodeDuty (onOf q).toNat (offOf q).toNat inv).isSome then .ok else .decodeError) :
    Reported (.getd ch inv) s ((s.afterRead (chaddr ch) 4).respond e r0 r1) := by
  rw [decodeDuty_isSome_flag _ _ inv false] at he
  exact .verdict (passesChecks_of_configured rfl hc) (r := ⟨e, r0, r1⟩) rfl (afterRead_history_ok h0 hq)
    (List.forall_mem_singleton.mpr rfl) ⟨_, rfl, he⟩

/-- A command that passed its checks and answers BusFault. -/
theorem Ran.reported_of_fault {t : State} (hr : Ran i s t) (hi : PassesChecks i s)
    (responses : t.responses = s.responses ++ [⟨.busFault, 0, 0⟩]) : Reported i s t := by
  rcases hr.endedWithoutFault_or_atFault with ⟨r, _, responses', notFault, _, _⟩ | ended
  · rw [responses, List.append_cancel_left_eq, List.singleton_inj] at responses'
    exact absurd (congrArg Response.status responses').symm notFault
  · exact .fault hi ended

/-- A CFG in range none of whose transactions faults answers OK (rule R98). -/
theorem reported_of_cfg {f : Nat} (h : ¬f ≤ 23) (hf : ∀ k < 5, (s.drawAt k).fault = false) :
    Reported (.cfg f) s (((cfgTransacted f s).setConfigured true).respond .ok (BitVec.ofNat 16 (prescale f))
      ((cfgOld s).setWidth 16)) :=
  .verdict (passesChecks_cfg h) (congrArg (· ++ [_]) (cfgWrites_responses (n := 4) (by omega)))
    (cfgTransacted_history f hf) (by simp) rfl

end reported

/-- Every command ends in one of the four ways. -/
theorem Ran.reported {i : Instr} {s t : State} (hr : Ran i s t) : Reported i s t := by
  have ran := hr
  cases hr with
  | encOut h => exact .range (by simp [operandRejected_enc, h]) (answeredSilently_respond ..)
  | setdOut h => exact .range (by simp [operandRejected_setd, h]) (answeredSilently_respond ..)
  | cfgOut h => exact .range (decide_eq_true h) ⟨⟨0, 0, rfl⟩, rfl, rfl⟩
  | setdUnconfigured h hc =>
    exact .unconfigured (by simp [operandRejected_setd, h]) rfl hc (answeredSilently_respond ..)
  | getdUnconfigured hc => exact .unconfigured rfl rfl hc (answeredSilently_respond ..)
  | enc h => exact reported_of_silent (passesChecks_of_ungated (by simp [operandRejected_enc, h]) rfl) rfl
  | decOther h => exact reported_of_silent (passesChecks_of_ungated rfl rfl) (by simp [StatusAfterOk, h])
  | dec h => exact reported_of_silent (passesChecks_of_ungated rfl rfl) (by simp [StatusAfterOk, h])
  | setdFault h hc _ => exact ran.reported_of_fault (passesChecks_setd h hc) rfl
  | setd h hc h0 =>
    exact .verdict (passesChecks_setd h hc) rfl rfl (List.forall_mem_singleton.mpr (State.txOutcome_ok h0)) rfl
  | getdFault hc _ => exact ran.reported_of_fault (passesChecks_of_configured rfl hc) rfl
  | getdOther hc h0 hq h => exact reported_of_blockRead hc h0 hq (by simp [h])
  | getd hc h0 hq h => exact reported_of_blockRead hc h0 hq (by simp [h])
  | cfgReadFault h _ | cfgSleepFault h _ _ | cfgPrescaleFault h _ _ _ | cfgRestoreFault h _ _ _ _
  | cfgEnableFault h _ _ _ _ _ => exact ran.reported_of_fault (passesChecks_cfg h) (by simp)
  | cfg h h0 h1 h2 h3 h4 => exact reported_of_cfg h fun k hk => by interval_cases k <;> assumption

/-- Settles O18: in each of the four ways a command can end, the premises of the other clauses fail. -/
theorem errorPriority : Obligations.ErrorPriority := by
  unfold Obligations.ErrorPriority
  refine ⟨fun s w rest e h hw => ⟨_, step_of_illegal h hw, rfl, rfl, rfl⟩, fun i s t h => ?_⟩
  cases (ran_of_exec h).reported with
  | range hi ht =>
    obtain ⟨⟨r0, r1, responses⟩, history, chip⟩ := ht
    exact ⟨⟨_, r0, r1⟩, [], responses, history.trans (List.append_nil _).symm, fun _ => ⟨rfl, rfl, chip⟩,
      fun inRange => absurd (hi.symm.trans inRange) (by decide)⟩
  | unconfigured hi hn hc ht =>
    obtain ⟨⟨r0, r1, responses⟩, history, chip⟩ := ht
    exact ⟨⟨_, r0, r1⟩, [], responses, history.trans (List.append_nil _).symm,
      fun rejected => absurd rejected (by simp [hi]),
      fun _ => ⟨fun _ => ⟨rfl, rfl, chip⟩, fun allowed => absurd ⟨hn, hc⟩ allowed⟩⟩
  | fault hi ht =>
    obtain ⟨responses, pre, k, history, -⟩ := ht
    have last : ⟨k, .fault⟩ ∈ pre ++ [(⟨k, .fault⟩ : Event)] := List.mem_append_right _ (List.mem_singleton_self _)
    exact ⟨_, _, responses, history, fun rejected => absurd rejected (by simp [hi.operand]),
      fun _ => ⟨fun gated => absurd gated hi.configured,
        fun _ => ⟨fun _ => rfl, fun ok => nomatch ok _ last⟩⟩⟩
  | @verdict hi r evs responses history ok status =>
    exact ⟨r, evs, responses, history, fun rejected => absurd rejected (by simp [hi.operand]),
      fun _ => ⟨fun gated => absurd gated hi.configured,
        fun _ => ⟨fun ⟨e, he, fault⟩ => absurd ((ok e he).symm.trans fault) (by decide), fun _ => by
          cases i <;> exact status⟩⟩⟩

/-! ### Before the first CFG (rules R114 and R132) -/

/-- A command other than CFG answers without any transaction in an unconfigured block. -/
theorem Ran.eq_respond_of_unconfigured {i : Instr} {s t : State} (hr : Ran i s t) (hc : s.configured = false)
    (hi : ∀ f, i ≠ .cfg f) : ∃ e r0 r1, t = s.respond e r0 r1 := by
  cases hr with
  | encOut _ | enc _ | decOther _ | dec _ | setdOut _ | setdUnconfigured _ _ | getdUnconfigured _ =>
    exact ⟨_, _, _, rfl⟩
  | setdFault _ configured _ | setd _ configured _ | getdFault configured _ | getdOther configured _ _ _
  | getd configured _ _ _ => simp [hc] at configured
  | cfgOut _ | cfgReadFault _ _ | cfgSleepFault _ _ _ | cfgPrescaleFault _ _ _ _ | cfgRestoreFault _ _ _ _ _
  | cfgEnableFault _ _ _ _ _ _ | cfg _ _ _ _ _ _ => exact absurd rfl (hi _)

/-- A word that is no CFG, legal or not, is answered without any transaction in an unconfigured block. -/
theorem step_eq_respond_of_unconfigured {s : State} {w : Word} {rest : List HostInput}
    (h : s.inbox = .command w :: rest) (hc : s.configured = false) (hw : ∀ f, decode w ≠ .ok (.cfg f)) :
    ∃ e r0 r1, step s = .next (({ s with inbox := rest } : State).respond e r0 r1) := by
  cases hd : decode w with
  | error _ => exact ⟨_, _, _, step_of_illegal h hd⟩
  | ok i =>
    obtain ⟨t, hr⟩ := ran_total i { s with inbox := rest }
    obtain ⟨e, r0, r1, rfl⟩ := hr.eq_respond_of_unconfigured hc fun f hi => hw f (hi ▸ hd)
    exact ⟨e, r0, r1, (step_of_legal h hd).trans hr.exec⟩

/-- Settles O50, by induction on the words presented: a response alone changes nothing that the statement names. -/
theorem noBusTrafficBeforeCfg : Obligations.NoBusTrafficBeforeCfg := by
  unfold Obligations.NoBusTrafficBeforeCfg
  intro ws
  induction ws with
  | nil => exact fun s _ hc _ => ⟨s, core_run_zero s, rfl, rfl, rfl, rfl, hc, rfl⟩
  | cons w ws ih =>
    intro s h hc hws
    obtain ⟨first, others⟩ := List.forall_mem_cons.mp hws
    obtain ⟨e, r0, r1, hstep⟩ := step_eq_respond_of_unconfigured h hc first
    obtain ⟨t, hrun, unchanged⟩ := ih (({ s with inbox := _ } : State).respond e r0 r1) rfl hc others
    exact ⟨t, (core_run_succ _ hstep).trans hrun, unchanged⟩

end Sys2Proof.Machine
end

section
/-! PROOFS. The block waits while nothing is presented (O11). -/

namespace Sys2Proof.Machine

/-- Settles O11: a state with an empty inbox is its own successor. -/
theorem waitsForCommand : Obligations.WaitsForCommand := by
  unfold Obligations.WaitsForCommand
  exact fun _ empty => step_of_nil empty

end Sys2Proof.Machine
end
